-- ==== Sys2Proof/Word.lean ====
section
/-! DEFINITION. The word types of the unit (spec 00_scope.md R11: every value is a bit vector of the stated width,
bit 0 the least significant). -/

namespace Sys2Proof

/-- A byte (R11). -/
abbrev Byte := BitVec 8

/-- A 16-bit value: the CRC register, buffer indices, device addresses, group identifiers. -/
abbrev Half := BitVec 16

/-- A 32-bit word: a command word (R91) or a catalogue descriptor word (R98). -/
abbrev Word := BitVec 32

end Sys2Proof
end

