-- ==== Sys2Proof/Config.lean ====
section
/-! DEFINITION. The parameters a model of the unit takes as arguments (spec 00_scope.md R5 to R8 and R10; 10_state.md
R21). They are fixed before reset is released (R34, R284) and no step changes them. -/

namespace Sys2Proof

/-- The implementation parameters. `bufCap` is BUF_CAP (R5), `opcode0` and `opcode1` the two bytes of OPCODE_CONST in
wire order (R6), `reqByte8` is REQ_BYTE8 (R7), `gid1` to `gid3` the three GROUP_ID values (R10), `catalog` the
descriptor words of CATALOG in their defined order (R8, R65), so that N_DESC is its length. -/
structure Params where
  bufCap   : Nat
  opcode0  : Byte
  opcode1  : Byte
  reqByte8 : Byte
  gid1     : Half
  gid2     : Half
  gid3     : Half
  catalog  : List Word
deriving DecidableEq, Repr

/-- N_DESC, the number of catalogue rows (R8). -/
def Params.nDesc (p : Params) : Nat := p.catalog.length

/-- The values the spec's test vectors use (R5, R6, R7, R10), with no catalogue row: the spec gives no default
catalogue, and a catalogue is loaded from outside (R8, R284). DESIGN CHOICE, log entries 2 and 3. -/
def Params.default : Params where
  bufCap   := 518
  opcode0  := 0x10#8
  opcode1  := 0x16#8
  reqByte8 := 0x00#8
  gid1     := 0x0001#16
  gid2     := 0x0002#16
  gid3     := 0x0003#16
  catalog  := []

end Sys2Proof
end

