-- ==== Sys2Proof/Syntax.lean ====
section
/-! DEFINITION. The instructions of both levels, one constructor per row of spec/opcode_table.json: the eight commands
of JKU-1 (spec 30_encoding.md R92) and the nine type tags of the catalogue (R100). -/

namespace Sys2Proof

/-- The three register groups (R16, R66). -/
inductive Group where
  | g1
  | g2
  | g3
deriving DecidableEq, Repr

/-- The nine primitive types of a catalogue row, in the order of their tags 0 to 8 (R100). -/
inductive TypeTag where
  | u8
  | i8
  | u16
  | i16
  | u32
  | i32
  | f32
  | text16
  | text8
deriving DecidableEq, Repr

/-- One instruction. The commands carry the fields `a` and `g` of the command word as it holds them (R91, R93); the
type tags carry the device register address of their row (R98). -/
inductive Instr where
  /-- CRCI, R134 -/
  | crci
  /-- CRCB a, R135 -/
  | crcb (a : Byte)
  /-- CRCR, R136 -/
  | crcr
  /-- STAT, R230 -/
  | stat
  /-- REQ a, g, R150 -/
  | req (a : Byte) (g : BitVec 2)
  /-- CAP, R167 -/
  | cap
  /-- LOC g, R181 -/
  | loc (g : BitVec 2)
  /-- DEC g, R196 -/
  | dec (g : BitVec 2)
  /-- a U8 row, R204 -/
  | u8 (addr : Half)
  /-- an I8 row, R205 -/
  | i8 (addr : Half)
  /-- a U16 row, R206 -/
  | u16 (addr : Half)
  /-- an I16 row, R207 -/
  | i16 (addr : Half)
  /-- a U32 row, R208 -/
  | u32 (addr : Half)
  /-- an I32 row, R209 -/
  | i32 (addr : Half)
  /-- an F32 row, R210 -/
  | f32 (addr : Half)
  /-- a Text16 row, R211 -/
  | text16 (addr : Half)
  /-- a Text8 row, R212 -/
  | text8 (addr : Half)
deriving DecidableEq, Repr

/-- The level-2 instruction of a catalogue row with this tag and address (R2, R98). -/
def Instr.ofRow (t : TypeTag) (addr : Half) : Instr :=
  match t with
  | .u8 => .u8 addr
  | .i8 => .i8 addr
  | .u16 => .u16 addr
  | .i16 => .i16 addr
  | .u32 => .u32 addr
  | .i32 => .i32 addr
  | .f32 => .f32 addr
  | .text16 => .text16 addr
  | .text8 => .text8 addr

/-- The row (tag and address) of a level-2 instruction; none for a command. -/
def Instr.row (i : Instr) : Option (TypeTag × Half) :=
  match i with
  | .crci => none
  | .crcb _ => none
  | .crcr => none
  | .stat => none
  | .req _ _ => none
  | .cap => none
  | .loc _ => none
  | .dec _ => none
  | .u8 addr => some (.u8, addr)
  | .i8 addr => some (.i8, addr)
  | .u16 addr => some (.u16, addr)
  | .i16 addr => some (.i16, addr)
  | .u32 addr => some (.u32, addr)
  | .i32 addr => some (.i32, addr)
  | .f32 addr => some (.f32, addr)
  | .text16 addr => some (.text16, addr)
  | .text8 addr => some (.text8, addr)

/-- Whether an instruction is a level-1 command (R2). -/
def Instr.isCommand (i : Instr) : Bool := i.row.isNone

end Sys2Proof
end

