-- ==== Sys2Proof/WellFormed.lean ====
section
/-! DEFINITION. What is well formed: a command's group operand (spec 30_encoding.md R91, R94) and the parameters (R5,
R8, R101). The unit answers an ill-formed command word with IllegalCommand; a model is not instantiated with ill-formed
parameters. -/

namespace Sys2Proof

/-- A group operand is 1, 2 or 3; 0 is reserved (R91). Every other operand field may hold any value: REQ's address
range is checked in execution, not in decoding (R93). -/
def Instr.wellFormed (i : Instr) : Bool :=
  match i with
  | .crci => true
  | .crcb _ => true
  | .crcr => true
  | .stat => true
  | .req _ g => decide (g ≠ 0#2)
  | .cap => true
  | .loc g => decide (g ≠ 0#2)
  | .dec g => decide (g ≠ 0#2)
  | .u8 _ => true
  | .i8 _ => true
  | .u16 _ => true
  | .i16 _ => true
  | .u32 _ => true
  | .i32 _ => true
  | .f32 _ => true
  | .text16 _ => true
  | .text8 _ => true

/-- A descriptor word is well formed when its tag is one of 0 to 8 and its reserved bits are zero (R98, R101). -/
def descriptorOk (d : Word) : Bool :=
  decide ((d.extractLsb' 16 4).toNat ≤ 8) && decide (d.extractLsb' 20 12 = 0#12)

/-- Every address occurs at most once in the catalogue (R8). -/
def addressesUnique (rows : List Word) : Bool :=
  decide ((rows.map fun d => d.extractLsb' 0 16).Nodup)

/-- The parameters a model may be instantiated with: 6 <= BUF_CAP <= 65535 (R5), at most 65535 rows, each well formed,
no address twice (R8, R101). -/
def Params.wellFormed (p : Params) : Bool :=
  decide (6 ≤ p.bufCap) && decide (p.bufCap ≤ 65535) && decide (p.nDesc ≤ 65535) &&
    p.catalog.all descriptorOk && addressesUnique p.catalog

end Sys2Proof
end

