-- ==== Sys2Proof/Decode.lean ====
section
/-! DEFINITION. Decoding of command words (spec 30_encoding.md R91 to R94) and of catalogue descriptor words (R98,
R100, R101), total and rejecting by name; then the encoder, written from the same tables (R92, R98, R109). -/

namespace Sys2Proof

/-- Why a word is no instruction of its level. -/
inductive DecodeError where
  /-- `opc` is not one of the eight commands (R92, R94) -/
  | reservedOpcode
  /-- a reserved bit of the command word is set (R91, R94) -/
  | reservedBits
  /-- the command does not use `a` and `a` is not zero (R94) -/
  | unusedA
  /-- the command does not use `g` and `g` is not zero (R94) -/
  | unusedG
  /-- the tag of a descriptor word is one of 9 to 15 (R98, R101) -/
  | reservedTag
  /-- a reserved bit of the descriptor word is set (R98, R101) -/
  | reservedRowBits
deriving DecidableEq, Repr

/-- The field `opc`, bits 7:0 (R91). -/
def opcOf (w : Word) : Byte := w.extractLsb' 0 8
/-- The field `a`, bits 15:8 (R91). -/
def aOf (w : Word) : Byte := w.extractLsb' 8 8
/-- The field `g`, bits 17:16 (R91). -/
def gOf (w : Word) : BitVec 2 := w.extractLsb' 16 2
/-- The field `rsv`, bits 31:18 (R91). -/
def rsvOf (w : Word) : BitVec 14 := w.extractLsb' 18 14

/-- A command that uses neither `a` nor `g` (R92, R94). -/
def decodePlain (w : Word) (i : Instr) : Except DecodeError Instr :=
  if aOf w ≠ 0#8 then .error .unusedA else if gOf w ≠ 0#2 then .error .unusedG else .ok i

/-- The command word `w` as an instruction (R92, R94). A word whose command uses `g` and holds `g = 0` matches its row
of the opcode table; it decodes to that command with the ill-formed operand 0, and its meaning raises IllegalCommand
(log entry 8). -/
def decodeCommand (w : Word) : Except DecodeError Instr :=
  if rsvOf w ≠ 0#14 then .error .reservedBits
  else if opcOf w = 0x01#8 then decodePlain w .crci
  else if opcOf w = 0x02#8 then (if gOf w ≠ 0#2 then .error .unusedG else .ok (.crcb (aOf w)))
  else if opcOf w = 0x03#8 then decodePlain w .crcr
  else if opcOf w = 0x04#8 then decodePlain w .stat
  else if opcOf w = 0x10#8 then .ok (.req (aOf w) (gOf w))
  else if opcOf w = 0x11#8 then decodePlain w .cap
  else if opcOf w = 0x12#8 then (if aOf w ≠ 0#8 then .error .unusedA else .ok (.loc (gOf w)))
  else if opcOf w = 0x13#8 then (if aOf w ≠ 0#8 then .error .unusedA else .ok (.dec (gOf w)))
  else .error .reservedOpcode

/-- The field `addr` of a descriptor word, bits 15:0 (R98). -/
def rowAddrOf (d : Word) : Half := d.extractLsb' 0 16
/-- The field `tag` of a descriptor word, bits 19:16 (R98). -/
def rowTagOf (d : Word) : BitVec 4 := d.extractLsb' 16 4
/-- The field `rsv` of a descriptor word, bits 31:20 (R98). -/
def rowRsvOf (d : Word) : BitVec 12 := d.extractLsb' 20 12

/-- The number of a type tag (R100). -/
def TypeTag.code (t : TypeTag) : BitVec 4 :=
  match t with
  | .u8 => 0#4
  | .i8 => 1#4
  | .u16 => 2#4
  | .i16 => 3#4
  | .u32 => 4#4
  | .i32 => 5#4
  | .f32 => 6#4
  | .text16 => 7#4
  | .text8 => 8#4

/-- The type with this tag number; 9 to 15 are reserved (R98, R100). -/
def tagOfCode (c : BitVec 4) : Option TypeTag :=
  if c = 0#4 then some .u8
  else if c = 1#4 then some .i8
  else if c = 2#4 then some .u16
  else if c = 3#4 then some .i16
  else if c = 4#4 then some .u32
  else if c = 5#4 then some .i32
  else if c = 6#4 then some .f32
  else if c = 7#4 then some .text16
  else if c = 8#4 then some .text8
  else none

/-- The descriptor word `d` as a level-2 instruction (R98, R100, R101). -/
def decodeDescriptor (d : Word) : Except DecodeError Instr :=
  if rowRsvOf d ≠ 0#12 then .error .reservedRowBits
  else match tagOfCode (rowTagOf d) with
    | some t => .ok (Instr.ofRow t (rowAddrOf d))
    | none => .error .reservedTag

/-- The 32 bits of a table word: `nbits` bits of `w`, every bit above them zero. -/
def tableWord (nbits w : Nat) : Word := BitVec.ofNat 32 (w % 2 ^ nbits)

/-- The instruction read from a word of the opcode table. The two levels have separate words (R90), so the table's one
column of words is read as a command word first and, where that is refused, as a descriptor word (log entry 9). -/
def decodeTableWord (nbits w : Nat) : Option Instr :=
  match decodeCommand (tableWord nbits w) with
  | .ok i => some i
  | .error _ =>
    match decodeDescriptor (tableWord nbits w) with
    | .ok i => some i
    | .error _ => none

/-- A command word from its fields, `rsv` zero (R91). -/
def commandWord (opc a : Byte) (g : BitVec 2) : Word := 0#14 ++ g ++ a ++ opc

/-- A descriptor word from its fields, `rsv` zero (R98). -/
def descriptorWord (t : TypeTag) (addr : Half) : Word := 0#12 ++ t.code ++ addr

/-- The word of an instruction (R92, R98, R109). -/
def encode (i : Instr) : Word :=
  match i with
  | .crci => commandWord 0x01#8 0#8 0#2
  | .crcb a => commandWord 0x02#8 a 0#2
  | .crcr => commandWord 0x03#8 0#8 0#2
  | .stat => commandWord 0x04#8 0#8 0#2
  | .req a g => commandWord 0x10#8 a g
  | .cap => commandWord 0x11#8 0#8 0#2
  | .loc g => commandWord 0x12#8 0#8 g
  | .dec g => commandWord 0x13#8 0#8 g
  | .u8 addr => descriptorWord .u8 addr
  | .i8 addr => descriptorWord .i8 addr
  | .u16 addr => descriptorWord .u16 addr
  | .i16 addr => descriptorWord .i16 addr
  | .u32 addr => descriptorWord .u32 addr
  | .i32 addr => descriptorWord .i32 addr
  | .f32 addr => descriptorWord .f32 addr
  | .text16 addr => descriptorWord .text16 addr
  | .text8 addr => descriptorWord .text8 addr

end Sys2Proof
end

