-- ==== Sys2Proof/Machine/State.lean ====
section
/-! DEFINITION. The state of the unit and of its five streams (spec 10_state.md R20, R22), the reasons a step can stop,
and the state after reset (70_reset_and_hazards.md R281). -/

namespace Sys2Proof.Machine

/-- The response buffer as (index, byte) pairs, indices strictly rising. An index that is not listed holds no value
(R20: `buf` is unspecified at reset; R62: a model gives such a byte no value). -/
abbrev Memory := List Host.Cell

/-- One token of the receive stream (30_encoding.md R106). -/
inductive Token where
  /-- one byte delivered by a transport read -/
  | byte (b : Byte)
  /-- a read that returned no bytes -/
  | quiet
deriving DecidableEq, Repr

/-- A completion record (R103). -/
structure Completion where
  err    : BitVec 4
  result : Half
deriving DecidableEq, Repr

/-- A field record (R104). -/
structure FieldRecord where
  cidx : Half
  tag  : BitVec 4
  roff : Half
  val  : BitVec 128
deriving DecidableEq, Repr

/-- The error kinds (60_exceptions.md R240). -/
inductive ErrorKind where
  /-- never raised by the unit (R241) -/
  | transportUnavailable
  /-- REQ with a device address outside 1 to 15 (R152) -/
  | invalidAddress
  /-- CAP with fewer than 6 bytes (R169) -/
  | shortResponse
  /-- LOC without a match (R184) -/
  | signatureNotFound
  /-- DEC at a row that does not fit (R200) -/
  | incompleteData
  /-- a word that is no legal command (R232) -/
  | illegalCommand
  /-- LOC or DEC without its input state (R187, R201) -/
  | outOfSequence
deriving DecidableEq, Repr

/-- What the unit is doing between two steps. The spec's commands are atomic towards each other (00_scope.md R15); a
CAP that waits for a token (42_capture.md R166) and a DEC between two rows (10_state.md R29) are commands in
progress. The MODEL's own field (log entries 4 and 5). -/
inductive Run where
  /-- no command is running: the next word of `cmd` is taken -/
  | idle
  /-- a CAP is running and needs more tokens -/
  | capturing
  /-- a DEC of this group is running, `cidx` is the row to examine, `n` records were emitted so far (R196) -/
  | decoding (g : Group) (n : Half)
deriving DecidableEq, Repr

/-- Why the machine stops with a fault. No fault is raised in a state that satisfies the invariant of Safety.lean. -/
inductive Fault where
  /-- `MemRead(addr, n)` with `addr + n > len`, which 20_memory.md R62 leaves undefined. Raised by the buffer read of
  LOC and DEC; safe (the model stops where the spec defines nothing). -/
  | readBeyondCapture (addr n : Nat)
  /-- A read of a captured index that holds no byte. Raised by the buffer read; no reachable state has such an index
  (R61, R63); safe. -/
  | unwrittenByte (addr : Nat)
deriving DecidableEq, Repr

/-- Why the machine refuses. -/
inductive Refusal where
  /-- An instruction without a meaning, by its mnemonic. Raised by no arm of this model. Safe. -/
  | notModelled (mnemonic : String)
  /-- A running DEC meets an ill-formed descriptor word (R101: the behaviour is not defined; U3: refuse). Raised by
  `step`; a model instantiated with well-formed parameters never meets one. Safe. -/
  | illFormedDescriptor (d : Word)
  /-- A level-2 instruction is given to `exec` while no DEC runs; only DEC interprets catalogue rows (R2), so the spec
  gives it no effect. Raised by the row meanings; `step` never does this. Safe. -/
  | rowOutsideDec
deriving DecidableEq, Repr

/-- The whole state: the parameters (R21), the unit's registers (R20), its streams (R22), its reset input (R280), and
the command in progress. -/
structure State where
  /-- the parameters, R5 to R8 and R10; never written -/
  cfg  : Params
  /-- the CRC register, R24 -/
  crc  : Half
  /-- the request frame register, index = wire offset, R25 -/
  req  : Vector Byte 11
  /-- the response buffer, R61 -/
  mem  : Memory
  /-- the number of bytes captured, R26 -/
  len  : Half
  /-- capture valid, R31 -/
  cv   : Bool
  /-- the payload offset, R27 -/
  poff : Half
  /-- payload valid, R32 -/
  pv   : Bool
  /-- the group `poff` was located for, R32 -/
  pg   : BitVec 2
  /-- the catalogue index, the program counter of level 2, R29 -/
  cidx : Half
  /-- the sticky error mask ERRS, R35 -/
  errs : BitVec 8
  /-- CMD: command words not yet taken, first first, R22 -/
  cmd  : List Word
  /-- RX: tokens not yet taken, first first, R22, R166 -/
  rx   : List Token
  /-- TX: the bytes written to the transport, in order, R22 -/
  tx   : List Byte
  /-- FLD: the field records, in order, R22 -/
  fld  : List FieldRecord
  /-- CPL: the completion records, in order, R22 -/
  cpl  : List Completion
  /-- the reset input, true while asserted, R280 -/
  rst  : Bool
  /-- the command in progress (the model's own field) -/
  run  : Run
deriving DecidableEq, Repr

/-- The unit right after reset with the parameters `p`: its registers have the values of R281. R281 lists no stream, and
R282 has reset leave the streams as they are, so what they hold before anything was issued, delivered or sent is open; that
all five start empty is the model's choice: DESIGN CHOICE, unsafe, log entry 19. The parameters, the released reset input
and the idle unit are those of log entries 3, 13 and 4. -/
def State.resetWith (p : Params) : State where
  cfg  := p
  crc  := 0xFFFF#16
  req  := Vector.replicate 11 0x00#8
  mem  := []
  len  := 0#16
  cv   := false
  poff := 0#16
  pv   := false
  pg   := 0#2
  cidx := 0#16
  errs := 0x00#8
  cmd  := []
  rx   := []
  tx   := []
  fld  := []
  cpl  := []
  rst  := false
  run  := .idle

/-- The machine right after reset (R281), with the spec's test-vector parameters and no catalogue row (log entries 2, 3
and 14) and with empty streams (log entry 19). -/
def State.reset : State := State.resetWith Params.default

end Sys2Proof.Machine
end

