-- ==== Sys2Proof/Machine/Flags.lean ====
section
/-! DEFINITION. The status side of the unit: error codes, the sticky mask ERRS, the assembled status word, and the packed
form of a completion record (spec 10_state.md R31 to R36, 30_encoding.md R103, 60_exceptions.md R240). The unit has no
arithmetic condition codes (R33). -/

namespace Sys2Proof.Machine

/-- The code of an error kind: the `err` of its completion record and its bit number in ERRS (R240). -/
def ErrorKind.code (k : ErrorKind) : BitVec 4 :=
  match k with
  | .transportUnavailable => 1#4
  | .invalidAddress => 2#4
  | .shortResponse => 3#4
  | .signatureNotFound => 4#4
  | .incompleteData => 5#4
  | .illegalCommand => 6#4
  | .outOfSequence => 7#4

/-- ERRS with the bit of kind `k` set (R35). -/
def setErrBit (errs : BitVec 8) (k : ErrorKind) : BitVec 8 := errs ||| (1#8 <<< k.code.toNat)

/-- STATUS: `{0b0000, pg, pv, cv, ERRS}` (R36). -/
def statusWord (s : State) : Half :=
  0#4 ++ s.pg ++ BitVec.ofBool s.pv ++ BitVec.ofBool s.cv ++ s.errs

/-- A completion record packed in 20 bits: `err` in bits 3:0, `result` in bits 19:4 (R103). -/
def Completion.pack (c : Completion) : BitVec 20 := c.result ++ c.err

end Sys2Proof.Machine
end

