-- ==== Sys2Proof/Machine/Operands.lean ====
section
/-! DEFINITION. Operand forms: the group table (spec 20_memory.md R66, 30_encoding.md R102), byte order (00_scope.md R13,
20_memory.md R68), the widths and the value of each primitive type (R100, R105, 44_decoder.md R203 to R213), windows
and offsets (R107, R197), and the packed field record (R104). -/

namespace Sys2Proof.Machine

/-- The group an operand `g` selects; 0 is reserved (R91, R93). -/
def groupOf (g : BitVec 2) : Option Group :=
  if g = 1#2 then some .g1
  else if g = 2#2 then some .g2
  else if g = 3#2 then some .g3
  else none

/-- The number of a group, as `pg` and the operand `g` hold it (R32, R91). -/
def groupBits (g : Group) : BitVec 2 :=
  match g with
  | .g1 => 1#2
  | .g2 => 2#2
  | .g3 => 3#2

/-- A group record (R102). -/
structure GroupRecord where
  sel  : Byte
  base : Half
  gid  : Half
deriving DecidableEq, Repr

/-- The group table GRP (R66). -/
def groupRecord (p : Params) (g : Group) : GroupRecord :=
  match g with
  | .g1 => { sel := 0x1E#8, base := 0x1000#16, gid := p.gid1 }
  | .g2 => { sel := 0x20#8, base := 0x1200#16, gid := p.gid2 }
  | .g3 => { sel := 0x1C#8, base := 0x1400#16, gid := p.gid3 }

/-- WIN, the number of addresses of a window (R9). -/
def windowSize : Nat := 0x200

/-- OVH, the bytes of signature and group identifier (R9). -/
def frameOverhead : Nat := 6

/-- SIG, the signature (R9, R96). -/
def signature : List Byte := [0x55#8, 0xAA#8, 0xEB#8, 0x90#8]

/-- A row's address lies in the window starting at `base`: only the start address is compared, without wrap (R197). -/
def inWindow (base addr : Half) : Bool :=
  decide (base.toNat ≤ addr.toNat) && decide (addr.toNat < base.toNat + windowSize)

/-- The group whose window holds a device address (R67). -/
def groupOfAddr (addr : Half) : Option Group :=
  if inWindow 0x1000#16 addr then some .g1
  else if inWindow 0x1200#16 addr then some .g2
  else if inWindow 0x1400#16 addr then some .g3
  else none

/-- Byte `k` of a byte sequence (R13). -/
def byteAt (m : List Byte) (k : Nat) : Byte := m.getD k 0#8

/-- LE16: the byte at the lower index is the less significant (R13). -/
def le16 (m : List Byte) (k : Nat) : Half := byteAt m (k + 1) ++ byteAt m k

/-- LE32: the byte at the lowest index is the least significant (R13). -/
def le32 (m : List Byte) (k : Nat) : Word :=
  byteAt m (k + 3) ++ byteAt m (k + 2) ++ byteAt m (k + 1) ++ byteAt m k

/-- The bytes of `m`, byte `k` at bits 8k+7:8k, zero above (R105, the Text rows). -/
def packBytes (w : Nat) (m : List Byte) : BitVec w :=
  match m with
  | [] => 0#w
  | b :: bs => b.setWidth w ||| (packBytes w bs <<< 8)

/-- A group identifier and signature stand at the start of these six bytes (R96, R181). -/
def frameAt (gid : Half) (m : List Byte) : Bool :=
  decide (m.take 4 = signature) && decide (le16 m 4 = gid)

/-- W(tag), the bytes a type reads (R100). -/
def rowWidth (t : TypeTag) : Nat :=
  match t with
  | .u8 => 1
  | .i8 => 1
  | .u16 => 2
  | .i16 => 2
  | .u32 => 4
  | .i32 => 4
  | .f32 => 4
  | .text16 => 16
  | .text8 => 8

/-- R204. -/
def extractU8 (m : List Byte) : BitVec 128 := ((byteAt m 0).setWidth 32).setWidth 128
/-- R205. -/
def extractI8 (m : List Byte) : BitVec 128 := ((byteAt m 0).signExtend 32).setWidth 128
/-- R206. -/
def extractU16 (m : List Byte) : BitVec 128 := ((le16 m 0).setWidth 32).setWidth 128
/-- R207. -/
def extractI16 (m : List Byte) : BitVec 128 := ((le16 m 0).signExtend 32).setWidth 128
/-- R208. -/
def extractU32 (m : List Byte) : BitVec 128 := (le32 m 0).setWidth 128
/-- R209. -/
def extractI32 (m : List Byte) : BitVec 128 := (le32 m 0).setWidth 128
/-- R210. -/
def extractF32 (m : List Byte) : BitVec 128 := (le32 m 0).setWidth 128
/-- R211. -/
def extractText16 (m : List Byte) : BitVec 128 := packBytes 128 (m.take 16)
/-- R212. -/
def extractText8 (m : List Byte) : BitVec 128 := packBytes 128 (m.take 8)

/-- Extract(tag, m) (R203). -/
def extract (t : TypeTag) (m : List Byte) : BitVec 128 :=
  match t with
  | .u8 => extractU8 m
  | .i8 => extractI8 m
  | .u16 => extractU16 m
  | .i16 => extractI16 m
  | .u32 => extractU32 m
  | .i32 => extractI32 m
  | .f32 => extractF32 m
  | .text16 => extractText16 m
  | .text8 => extractText8 m

/-- The abstract value of a field (R105). -/
inductive FieldValue where
  /-- U8, U16, U32 -/
  | natural (n : Nat)
  /-- I8, I16, I32 -/
  | signed (z : Int)
  /-- F32: the 32-bit pattern -/
  | pattern (p : Word)
  /-- Text8, Text16: the bytes in buffer order, then one 0x00 (R213) -/
  | text (bytes : List Byte)
deriving DecidableEq, Repr

/-- The abstract value of a field of type `t` whose bytes are `m`, lowest buffer index first (R105, R204 to R213). -/
def abstractValue (t : TypeTag) (m : List Byte) : FieldValue :=
  match t with
  | .u8 => .natural (byteAt m 0).toNat
  | .i8 => .signed (byteAt m 0).toInt
  | .u16 => .natural (le16 m 0).toNat
  | .i16 => .signed (le16 m 0).toInt
  | .u32 => .natural (le32 m 0).toNat
  | .i32 => .signed (le32 m 0).toInt
  | .f32 => .pattern (le32 m 0)
  | .text16 => .text (m.take 16 ++ [0x00#8])
  | .text8 => .text (m.take 8 ++ [0x00#8])

/-- The bytes `k` to `k + n - 1` of a packed value, byte `k` from bits 8k+7:8k. -/
def unpackBytes (v : BitVec 128) : Nat → Nat → List Byte
  | _, 0 => []
  | k, n + 1 => v.extractLsb' (8 * k) 8 :: unpackBytes v (k + 1) n

/-- The abstract value a reader of a field record recovers from its `tag` and `val` (R105); none for a reserved tag. -/
def FieldRecord.value (r : FieldRecord) : Option FieldValue :=
  match tagOfCode r.tag with
  | none => none
  | some .u8 => some (.natural (r.val.extractLsb' 0 32).toNat)
  | some .i8 => some (.signed (r.val.extractLsb' 0 32).toInt)
  | some .u16 => some (.natural (r.val.extractLsb' 0 32).toNat)
  | some .i16 => some (.signed (r.val.extractLsb' 0 32).toInt)
  | some .u32 => some (.natural (r.val.extractLsb' 0 32).toNat)
  | some .i32 => some (.signed (r.val.extractLsb' 0 32).toInt)
  | some .f32 => some (.pattern (r.val.extractLsb' 0 32))
  | some .text16 => some (.text (unpackBytes r.val 0 16 ++ [0x00#8]))
  | some .text8 => some (.text (unpackBytes r.val 0 8 ++ [0x00#8]))

/-- A field record packed in 164 bits: `cidx` in bits 15:0, `tag` in 19:16, `roff` in 35:20, `val` in 163:36 (R104). -/
def FieldRecord.pack (r : FieldRecord) : BitVec 164 := r.val ++ r.roff ++ r.tag ++ r.cidx

end Sys2Proof.Machine
end

