-- ==== Sys2Proof/Machine/Ops.lean ====
section
/-! DEFINITION. The shared operations: the response buffer (spec 20_memory.md R60 to R63), completing a command
(30_encoding.md R103), raising an error (60_exceptions.md R246), and reset (70_reset_and_hazards.md R280 to R283). -/

namespace Sys2Proof.Machine

/-- The byte a memory holds at an index; none where it holds no value (R62). -/
def Memory.read? : Memory → Nat → Option Byte
  | [], _ => none
  | (k, b) :: rest, a => if k = a then some b else Memory.read? rest a

/-- A memory with byte `v` stored at index `a`; a rising memory stays rising. -/
def Memory.write : Memory → Nat → Byte → Memory
  | [], a, v => [(a, v)]
  | (k, b) :: rest, a, v =>
    if a < k then (a, v) :: (k, b) :: rest
    else if a = k then (a, v) :: rest
    else (k, b) :: Memory.write rest a v

/-- The canonical form: indices strictly rising. An unlisted index reads as no value, which no entry equals, so equal
memories are equal lists. -/
abbrev Memory.wf (m : Memory) : Prop := List.Pairwise (fun x y : Host.Cell => x.1 < y.1) m

/-- The `n` bytes from index `a`, lowest first; a byte without a value is a fault. -/
def readBytes (m : Memory) : Nat → Nat → Except Fault (List Byte)
  | _, 0 => .ok []
  | a, n + 1 =>
    match Memory.read? m a with
    | none => .error (.unwrittenByte a)
    | some b =>
      match readBytes m (a + 1) n with
      | .ok bs => .ok (b :: bs)
      | .error f => .error f

/-- `MemRead(addr, n)`: defined only inside the captured data (R14, R62). -/
def memRead (s : State) (addr n : Nat) : Except Fault (List Byte) :=
  if addr + n ≤ s.len.toNat then readBytes s.mem addr n else .error (.readBeyondCapture addr n)

/-- `complete(err = 0, result)`: one completion record, and the unit is ready for the next command (R103). -/
def complete (result : Half) (s : State) : State :=
  { s with cpl := s.cpl ++ [{ err := 0#4, result := result }], run := .idle }

/-- `raise k`: the sticky bit is set, one completion record with the kind's code is appended, and the unit is ready for
the next command (R246). Control goes nowhere and nothing is saved, so there is nothing to return from (R248): the
next command runs by the ordinary rules. -/
def raise (k : ErrorKind) (result : Half) (s : State) : State :=
  { s with
    errs := setErrBit s.errs k
    cpl := s.cpl ++ [{ err := k.code, result := result }]
    run := .idle }

/-- IllegalCommand: no other effect, result 0 (R94, R232). -/
def raiseIllegal (s : State) : State := raise .illegalCommand 0#16 s

/-- Reset asserted: the unit's registers take the values of R281, a running command is abandoned without a completion
record (R283), parameters and streams are untouched (R282). -/
def resetUnit (s : State) : State :=
  { s with
    crc := 0xFFFF#16
    req := Vector.replicate 11 0x00#8
    mem := []
    len := 0#16
    cv := false
    poff := 0#16
    pv := false
    pg := 0#2
    cidx := 0#16
    errs := 0x00#8
    run := .idle }

/-- A model is instantiated with well-formed parameters only (R8, R101). -/
def instantiate (p : Params) : Option State :=
  if p.wellFormed then some (State.resetWith p) else none

end Sys2Proof.Machine
end

