-- ==== Sys2Proof/Machine/Capture.lean ====
section
/-! DEFINITION. The response capturer, CAP (spec 42_capture.md). -/

namespace Sys2Proof.Machine

/-- What the capture loop leaves: the buffer, the number of bytes in it, the tokens not taken, and whether the loop
ended (by a Quiet token or a full buffer) or ran out of tokens. -/
structure Captured where
  mem   : Memory
  len   : Half
  rx    : List Token
  ended : Bool
deriving DecidableEq, Repr

/-- The loop of CAP over the tokens at hand (R167). A full buffer ends it without taking another token (R168); with no
token left and room in the buffer it has not ended (R166). -/
def captureTokens (cap : Nat) : List Token → Memory → Half → Captured
  | [], mem, len => { mem := mem, len := len, rx := [], ended := decide (cap ≤ len.toNat) }
  | t :: ts, mem, len =>
    if len.toNat < cap then
      match t with
      | .quiet => { mem := mem, len := len, rx := ts, ended := true }
      | .byte b => captureTokens cap ts (Memory.write mem len.toNat b) (len + 1#16)
    else { mem := mem, len := len, rx := t :: ts, ended := true }

/-- The state in which the loop of CAP starts (R167). -/
def beginCapture (s : State) : State :=
  { s with len := 0#16, cv := false, pv := false, run := .capturing }

/-- The state with what the capture loop has stored and consumed. -/
def withCaptured (c : Captured) (s : State) : State :=
  { s with mem := c.mem, len := c.len, rx := c.rx }

/-- A running CAP takes the tokens at hand. When its loop has ended it completes, or raises ShortResponse below 6 bytes
(R167, R169); when it has not, CAP waits for more tokens (R166). -/
def runCapture (s : State) : Host.Outcome State Fault Refusal :=
  let c := captureTokens s.cfg.bufCap s.rx s.mem s.len
  if c.ended then
    if c.len.toNat < frameOverhead then .next (raise .shortResponse c.len (withCaptured c s))
    else .next (complete c.len { withCaptured c s with cv := true })
  else .next { withCaptured c s with run := .capturing }

/-- CAP (R167). -/
def execCap (s : State) : Host.Outcome State Fault Refusal := runCapture (beginCapture s)

end Sys2Proof.Machine
end

