-- ==== Sys2Proof/Machine/Decoder.lean ====
section
/-! DEFINITION. The field decoder: DEC and the nine type tags of catalogue rows (spec 44_decoder.md). DEC starts the
level-2 interpreter at row 0; each row is one step of the interpreter, `cidx` its program counter (10_state.md R29);
past the last row DEC completes. -/

namespace Sys2Proof.Machine

/-- DEC g: its precondition, then the first row (R196, R201); `g = 0` is an illegal word and is checked first (R94,
R245). -/
def execDec (g : BitVec 2) (s : State) : Host.Outcome State Fault Refusal :=
  match groupOf g with
  | none => .next (raiseIllegal s)
  | some grp =>
    if s.pv && decide (s.pg = g) then .next { s with cidx := 0#16, run := .decoding grp 0#16 }
    else .next (raise .outOfSequence 0#16 s)

/-- `avail`, the captured bytes from the payload offset on (R18, R196). -/
def avail (s : State) : Nat := s.len.toNat - s.poff.toNat

/-- A row outside the window is skipped (R197). -/
def skipRow (s : State) : State := { s with cidx := s.cidx + 1#16 }

/-- A row that takes part and fits: its record is appended and the interpreter goes on (R196, R199). -/
def emitRow (g : Group) (n : Half) (r : FieldRecord) (s : State) : State :=
  { s with fld := s.fld ++ [r], cidx := s.cidx + 1#16, run := .decoding g (n + 1#16) }

/-- One row of the loop of DEC: window selection (R197), bounds check (R198), emission (R199) or IncompleteData (R200). -/
def interpretRow (t : TypeTag) (addr : Half) (s : State) : Host.Outcome State Fault Refusal :=
  match s.run with
  | .decoding g n =>
    let base := (groupRecord s.cfg g).base
    let roff := addr - base
    if inWindow base addr then
      if roff.toNat + rowWidth t ≤ avail s then
        match memRead s (s.poff.toNat + roff.toNat) (rowWidth t) with
        | .error f => .fault f
        | .ok m => .next (emitRow g n { cidx := s.cidx, tag := t.code, roff := roff, val := extract t m } s)
      else .next (raise .incompleteData n s)
    else .next (skipRow s)
  | .idle => .refused .rowOutsideDec
  | .capturing => .refused .rowOutsideDec

/-- A U8 row (R204). -/
def execU8 (addr : Half) (s : State) : Host.Outcome State Fault Refusal := interpretRow .u8 addr s
/-- An I8 row (R205). -/
def execI8 (addr : Half) (s : State) : Host.Outcome State Fault Refusal := interpretRow .i8 addr s
/-- A U16 row (R206). -/
def execU16 (addr : Half) (s : State) : Host.Outcome State Fault Refusal := interpretRow .u16 addr s
/-- An I16 row (R207). -/
def execI16 (addr : Half) (s : State) : Host.Outcome State Fault Refusal := interpretRow .i16 addr s
/-- A U32 row (R208). -/
def execU32 (addr : Half) (s : State) : Host.Outcome State Fault Refusal := interpretRow .u32 addr s
/-- An I32 row (R209). -/
def execI32 (addr : Half) (s : State) : Host.Outcome State Fault Refusal := interpretRow .i32 addr s
/-- An F32 row (R210). -/
def execF32 (addr : Half) (s : State) : Host.Outcome State Fault Refusal := interpretRow .f32 addr s
/-- A Text16 row (R211). -/
def execText16 (addr : Half) (s : State) : Host.Outcome State Fault Refusal := interpretRow .text16 addr s
/-- A Text8 row (R212). -/
def execText8 (addr : Half) (s : State) : Host.Outcome State Fault Refusal := interpretRow .text8 addr s

end Sys2Proof.Machine
end

