-- ==== Sys2Proof/Machine/FrameBuilder.lean ====
section
/-! DEFINITION. The frame builder, REQ (spec 41_frame_builder.md, 30_encoding.md R95). -/

namespace Sys2Proof.Machine

/-- The bytes at offsets 0 to 8 of the request frame (R95, R150). -/
def requestHead (p : Params) (a : Byte) (g : Group) : List Byte :=
  [a, p.opcode0, p.opcode1, (groupRecord p g).sel, 0x00#8, 0x00#8, 0x00#8, 0x00#8, p.reqByte8]

/-- The CRC of the request frame, over the bytes at offsets 0 to 8 (R95, R150). -/
def requestCrc (p : Params) (a : Byte) (g : Group) : Half := crc16 (requestHead p a g)

/-- The 11 bytes of the request frame, offset 0 first, the CRC's low byte at offset 9 (R95, R150). -/
def requestFrame (p : Params) (a : Byte) (g : Group) : Vector Byte 11 :=
  #v[a, p.opcode0, p.opcode1, (groupRecord p g).sel, 0x00#8, 0x00#8, 0x00#8, 0x00#8, p.reqByte8,
    (requestCrc p a g).extractLsb' 0 8, (requestCrc p a g).extractLsb' 8 8]

/-- The device addresses REQ accepts, 1 to 15 (R9, R152). -/
def addressOk (a : Byte) : Bool := decide (1 ≤ a.toNat) && decide (a.toNat ≤ 15)

/-- The frame is held in `req`, its CRC in `crc`, and its 11 bytes are appended to TX in offset order (R150). -/
def sendRequest (a : Byte) (g : Group) (s : State) : State :=
  { s with
    req := requestFrame s.cfg a g
    crc := requestCrc s.cfg a g
    tx := s.tx ++ (requestFrame s.cfg a g).toList }

/-- REQ a, g (R150, R152); `g = 0` is an illegal word and is checked first (R94, R245). -/
def execReq (a : Byte) (g : BitVec 2) (s : State) : Host.Outcome State Fault Refusal :=
  match groupOf g with
  | none => .next (raiseIllegal s)
  | some grp =>
    if addressOk a then .next (complete (requestCrc s.cfg a grp) (sendRequest a grp s))
    else .next (raise .invalidAddress 0#16 s)

end Sys2Proof.Machine
end

