-- ==== Sys2Proof/Machine/Locator.lean ====
section
/-! DEFINITION. The frame locator, LOC (spec 43_locator.md). -/

namespace Sys2Proof.Machine

/-- The scan of LOC over `k` positions starting at `p`: the first position whose six bytes are the signature and the
group identifier (R181, R183). -/
def scan (s : State) (gid : Half) : Nat → Nat → Except Fault (Option Nat)
  | 0, _ => .ok none
  | k + 1, p =>
    match memRead s p frameOverhead with
    | .error f => .error f
    | .ok m => if frameAt gid m then .ok (some p) else scan s gid k (p + 1)

/-- The number of positions LOC examines: those with `p + 6 < len` (R182). -/
def scanCount (s : State) : Nat := s.len.toNat - frameOverhead

/-- A match at position `p` (R183). -/
def located (g : BitVec 2) (p : Nat) (s : State) : State :=
  { s with poff := BitVec.ofNat 16 (p + frameOverhead), pv := true, pg := g }

/-- LOC g (R181 to R184, R187); `g = 0` is an illegal word and is checked first (R94, R245). -/
def execLoc (g : BitVec 2) (s : State) : Host.Outcome State Fault Refusal :=
  match groupOf g with
  | none => .next (raiseIllegal s)
  | some grp =>
    if s.cv then
      match scan s (groupRecord s.cfg grp).gid (scanCount s) 0 with
      | .error f => .fault f
      | .ok (some p) => .next (complete (BitVec.ofNat 16 (p + frameOverhead)) (located g p s))
      | .ok none => .next (raise .signatureNotFound 0#16 { s with pv := false })
    else .next (raise .outOfSequence 0#16 s)

end Sys2Proof.Machine
end

