-- ==== Sys2Proof/Machine/System.lean ====
section
/-! DEFINITION. The status command STAT (spec 45_system.md R230). -/

namespace Sys2Proof.Machine

/-- STAT: the status word; nothing else is written (R230). -/
def execStat (s : State) : Host.Outcome State Fault Refusal :=
  .next (complete (statusWord s) s)

end Sys2Proof.Machine
end

