-- ==== Sys2Proof/Machine/Dispatch.lean ====
section
/-! DEFINITION. The meaning of every instruction, one arm per constructor of Instr. -/

namespace Sys2Proof.Machine

def exec (i : Instr) (s : State) : Host.Outcome State Fault Refusal :=
  match i with
  -- the CRC-16 engine, 40_crc.md
  | .crci => Sys2Proof.Machine.execCrci s
  | .crcb a => Sys2Proof.Machine.execCrcb a s
  | .crcr => Sys2Proof.Machine.execCrcr s
  -- status, 45_system.md
  | .stat => Sys2Proof.Machine.execStat s
  -- the protocol commands, 41_frame_builder.md to 44_decoder.md
  | .req a g => Sys2Proof.Machine.execReq a g s
  | .cap => Sys2Proof.Machine.execCap s
  | .loc g => Sys2Proof.Machine.execLoc g s
  | .dec g => Sys2Proof.Machine.execDec g s
  -- the catalogue rows, 44_decoder.md section 2
  | .u8 addr => Sys2Proof.Machine.execU8 addr s
  | .i8 addr => Sys2Proof.Machine.execI8 addr s
  | .u16 addr => Sys2Proof.Machine.execU16 addr s
  | .i16 addr => Sys2Proof.Machine.execI16 addr s
  | .u32 addr => Sys2Proof.Machine.execU32 addr s
  | .i32 addr => Sys2Proof.Machine.execI32 addr s
  | .f32 addr => Sys2Proof.Machine.execF32 addr s
  | .text16 addr => Sys2Proof.Machine.execText16 addr s
  | .text8 addr => Sys2Proof.Machine.execText8 addr s

end Sys2Proof.Machine
end

