-- ==== Sys2Proof/Machine/Fetch.lean ====
section
/-! DEFINITION. Where the next instruction comes from: command words from CMD in arrival order (spec 10_state.md R28),
catalogue rows from CAT at `cidx` (20_memory.md R65, R78); and how one word is placed there. -/

namespace Sys2Proof.Machine

/-- The first word of CMD, and the state without it (R22, R28). -/
def nextCommand (s : State) : Option (Word × State) :=
  match s.cmd with
  | [] => none
  | w :: ws => some (w, { s with cmd := ws })

/-- `CAT[cidx]`; none when `cidx` has reached N_DESC (R29, R65). -/
def fetchRow (s : State) : Option Word := s.cfg.catalog[s.cidx.toNat]?

/-- The unit idle, with `w` the next command word. -/
def placeCommand (w : Word) (s : State) : State :=
  { s with rst := false, run := .idle, cmd := w :: s.cmd }

/-- A DEC in progress at the first row of a catalogue that is the one row `d`. The DEC is of the group whose window
holds the row's address (group 1 where none does). -/
def placeRow (d : Word) (s : State) : State :=
  { s with
    rst := false
    run := .decoding ((groupOfAddr (rowAddrOf d)).getD .g1) 0#16
    cidx := 0#16
    cfg := { s.cfg with catalog := [d] } }

/-- `w` placed at the level `decodeTableWord` reads it at. -/
def placeWord (w : Word) (s : State) : State :=
  match decodeCommand w with
  | .ok _ => placeCommand w s
  | .error _ =>
    match decodeDescriptor w with
    | .ok _ => placeRow w s
    | .error _ => placeCommand w s

end Sys2Proof.Machine
end

