-- ==== Sys2Proof/Machine/Step.lean ====
section
/-! DEFINITION. One step of the machine: reset while it is asserted (spec 70_reset_and_hazards.md R280); else, by the
command in progress, the next command word (10_state.md R28), the rest of a waiting CAP (42_capture.md R166), or the
next catalogue row of a DEC (R29, R196). -/

namespace Sys2Proof.Machine

/-- One step. With no command running and CMD empty the unit waits, and nothing changes (log entry 6). -/
def step (s : State) : Host.Outcome State Fault Refusal :=
  if s.rst then .next (resetUnit s)
  else
    match s.run with
    | .idle =>
      match nextCommand s with
      | none => .next s
      | some (w, s') =>
        match decodeCommand w with
        | .ok i => exec i s'
        | .error _ => .next (raiseIllegal s')
    | .capturing => runCapture s
    | .decoding _ n =>
      match fetchRow s with
      | none => .next (complete n s)
      | some d =>
        match decodeDescriptor d with
        | .ok i => exec i s
        | .error _ => .refused (.illFormedDescriptor d)

/-- `s` with the table word `w` where the next step takes its instruction from: a command word at the head of CMD with
the unit idle, a descriptor word as the catalogue's one row under a DEC in progress (log entry 9). -/
def State.withFetchWord (s : State) (nbits w : Nat) : State :=
  placeWord (tableWord nbits w) s

end Sys2Proof.Machine
end

