-- ==== Sys2Proof/Machine/Ports.lean ====
section
/-! DEFINITION. What the surroundings of the unit can do between two steps (spec 10_state.md R22, 60_exceptions.md R253,
70_reset_and_hazards.md R280): the host issues command words, the transport delivers tokens, the reset input changes.
The output streams are only read by them. -/

namespace Sys2Proof.Machine

/-- The host appends command words to CMD (R22); it does so only between commands (R253, `eventAllowed`). -/
def issue (ws : List Word) (s : State) : State := { s with cmd := s.cmd ++ ws }

/-- The transport appends tokens to RX, at any time (R166, R253). -/
def deliver (ts : List Token) (s : State) : State := { s with rx := s.rx ++ ts }

/-- The tokens of one transport read: its bytes in order, or one Quiet when it returned none (R106). -/
def readTokens (bytes : List Byte) : List Token :=
  match bytes with
  | [] => [.quiet]
  | b :: bs => .byte b :: bs.map .byte

/-- The reset input is asserted (R280). Its effect comes with the next step or with its release. -/
def assertReset (s : State) : State := { s with rst := true }

/-- The reset input is released: the unit is then in the state of R281, whatever happened while it was asserted (R280).
The spec has no time and names no least duration; that an assertion acts even when no step lies between it and its
release is the model's choice: DESIGN CHOICE, unsafe, log entry 13. Releasing an input that is not asserted changes
nothing. -/
def releaseReset (s : State) : State := if s.rst then { resetUnit s with rst := false } else s

/-- One thing the surroundings do (R22, R253, R280). -/
inductive PortEvent where
  /-- the host appends command words to CMD -/
  | issue (ws : List Word)
  /-- the transport appends tokens to RX -/
  | deliver (ts : List Token)
  /-- the reset input is asserted -/
  | assertReset
  /-- the reset input is released -/
  | releaseReset
deriving DecidableEq, Repr

/-- What an event does to the state. -/
def applyEvent (s : State) (e : PortEvent) : State :=
  match e with
  | .issue ws => issue ws s
  | .deliver ts => deliver ts s
  | .assertReset => assertReset s
  | .releaseReset => releaseReset s

/-- Whether an event may happen in this state: inside a command the host takes no step, the transport may append tokens at
any time (R253), and reset may come while a command runs (R283). -/
def eventAllowed (s : State) (e : PortEvent) : Bool :=
  match e with
  | .issue _ => decide (s.run = .idle)
  | .deliver _ => true
  | .assertReset => true
  | .releaseReset => true

/-- Whether events may happen one after the other from this state on (R253). -/
def eventsAllowed (s : State) (es : List PortEvent) : Bool :=
  match es with
  | [] => true
  | e :: rest => eventAllowed s e && eventsAllowed (applyEvent s e) rest

/-- The events of one gap between two steps, first first. -/
def applyEvents (es : List PortEvent) (s : State) : State := es.foldl applyEvent s

end Sys2Proof.Machine
end

