-- ==== Sys2Proof/Machine/Reference.lean ====
section
/-! DEFINITION. The source's operations on whole byte sequences, as spec 43_locator.md R180 and 44_decoder.md R195 quote
them, written without the machine. Claims compare the machine with these; no step uses them. -/

namespace Sys2Proof.Machine

/-- `locateFrame`: the first position `p` of `bytes`, counted from `at0`, with `p + 6 < length` at which signature and
group identifier stand (R180, R182). -/
def locateFrame (gid : Half) : Nat → List Byte → Option Nat
  | _, [] => none
  | at0, b :: rest =>
    if frameOverhead < (b :: rest).length ∧ frameAt gid ((b :: rest).take frameOverhead) then some at0
    else locateFrame gid (at0 + 1) rest

/-- `decodeGroup`: the records of the rows `rows`, the first of which has index `idx`, over the payload bytes, and the
index of the row at which decoding stops for want of data, if any (R195 to R200). -/
def decodeGroup (base : Half) (payload : List Byte) : Nat → List Word → List FieldRecord × Option Nat
  | _, [] => ([], none)
  | idx, d :: rest =>
    match tagOfCode (rowTagOf d) with
    | none => ([], some idx)
    | some t =>
      let roff := rowAddrOf d - base
      if inWindow base (rowAddrOf d) then
        if roff.toNat + rowWidth t ≤ payload.length then
          let r : FieldRecord :=
            { cidx := BitVec.ofNat 16 idx, tag := t.code, roff := roff,
              val := extract t ((payload.drop roff.toNat).take (rowWidth t)) }
          let more := decodeGroup base payload (idx + 1) rest
          (r :: more.1, more.2)
        else ([], some idx)
      else decodeGroup base payload (idx + 1) rest

end Sys2Proof.Machine
end

