-- ==== Sys2Proof/Safety.lean ====
section
/-! DEFINITION. What holds in every reachable state (spec 10_state.md R40), and the terms in which claims are stated:
legal command words (30_encoding.md R94), where a frame stands in a byte sequence (43_locator.md R181, R182), and what a
catalogue row does (44_decoder.md R196 to R199). -/

namespace Sys2Proof.Machine

/-- What a command in progress presupposes: a CAP has cleared `cv` and `pv` (R167); a DEC runs only for the located
group, and has emitted at most one record per row passed (R196). -/
def RunOk (s : State) : Prop :=
  match s.run with
  | .idle => True
  | .capturing => s.cv = false ∧ s.pv = false
  | .decoding g n => s.pv = true ∧ s.pg = groupBits g ∧ n.toNat ≤ s.cidx.toNat

/-- The invariant: the clauses of R40, with what the model's own representation adds (well-formed parameters, a buffer in
canonical form inside its capacity, a value for every captured byte, `RunOk`). -/
structure Inv (s : State) : Prop where
  params    : s.cfg.wellFormed = true
  canonical : Memory.wf s.mem
  inBuffer  : ∀ c ∈ s.mem, c.1 < s.cfg.bufCap
  captured  : ∀ a, a < s.len.toNat → (Memory.read? s.mem a).isSome = true
  lenCap    : s.len.toNat ≤ s.cfg.bufCap
  cvLen     : s.cv = true → 6 ≤ s.len.toNat
  pvCv      : s.pv = true → s.cv = true
  pvRange   : s.pv = true → 6 ≤ s.poff.toNat ∧ s.poff.toNat < s.len.toNat
  pvFrame   : s.pv = true → ∃ g m, s.pg = groupBits g ∧ readBytes s.mem (s.poff.toNat - 6) 6 = .ok m ∧
                m.take 4 = [0x55#8, 0xAA#8, 0xEB#8, 0x90#8] ∧ le16 m 4 = (groupRecord s.cfg g).gid
  cidxRange : s.cidx.toNat ≤ s.cfg.nDesc
  errsBit0  : s.errs.getLsbD 0 = false
  errsBit1  : s.errs.getLsbD 1 = false
  running   : RunOk s

/-- `k` steps, stopping at the first fault or refusal. -/
def steps : Nat → State → Host.Outcome State Fault Refusal
  | 0, s => .next s
  | k + 1, s =>
    match step s with
    | .next t => steps k t
    | .fault f => .fault f
    | .refused r => .refused r

/-- A legal command word, by its fields (R91, R92, R94). -/
def LegalCommandWord (w : Word) : Prop :=
  w.extractLsb' 18 14 = 0#14 ∧
    ((w.extractLsb' 0 8 ∈ [0x01#8, 0x03#8, 0x04#8, 0x11#8] ∧ w.extractLsb' 8 8 = 0#8 ∧ w.extractLsb' 16 2 = 0#2) ∨
     (w.extractLsb' 0 8 = 0x02#8 ∧ w.extractLsb' 16 2 = 0#2) ∨
     (w.extractLsb' 0 8 = 0x10#8 ∧ w.extractLsb' 16 2 ≠ 0#2) ∨
     (w.extractLsb' 0 8 ∈ [0x12#8, 0x13#8] ∧ w.extractLsb' 8 8 = 0#8 ∧ w.extractLsb' 16 2 ≠ 0#2))

/-- Position `p` of the captured bytes `bs` is in LOC's scan range and shows signature and identifier (R181, R182). -/
def FrameStands (gid : Half) (bs : List Byte) (p : Nat) : Prop :=
  p + 6 < bs.length ∧ (bs.drop p).take 4 = [0x55#8, 0xAA#8, 0xEB#8, 0x90#8] ∧
    (byteAt bs (p + 4)).toNat + 256 * (byteAt bs (p + 5)).toNat = gid.toNat

/-- The natural number whose little-endian bytes are `m`. -/
def leNat (m : List Byte) : Nat :=
  match m with
  | [] => 0
  | b :: bs => b.toNat + 256 * leNat bs

/-- The integer that a `w`-bit natural number reads as in two's complement (R11). -/
def twosComplement (w u : Nat) : Int := if u < 2 ^ (w - 1) then (u : Int) else (u : Int) - (2 ^ w : Nat)

/-- The state after a whole DEC whose records and stopping row are `out` (R199, R200, R202): the records are appended to
FLD, `cidx` is the row that did not fit or N_DESC, and one completion record holds the number of records. -/
def decodedState (s : State) (out : List FieldRecord × Option Nat) : State :=
  match out.2 with
  | none => { s with
      cidx := BitVec.ofNat 16 s.cfg.nDesc, fld := s.fld ++ out.1,
      cpl := s.cpl ++ [{ err := 0#4, result := BitVec.ofNat 16 out.1.length }], run := .idle }
  | some row => { s with
      cidx := BitVec.ofNat 16 row, fld := s.fld ++ out.1, errs := s.errs ||| 0x20#8,
      cpl := s.cpl ++ [{ err := 5#4, result := BitVec.ofNat 16 out.1.length }], run := .idle }

/-- What spec 44_decoder.md says of one type: its tag number, its width, the `val` its bytes give, and the abstract
value, computed from the bytes and recovered from a record that holds this tag and `val`. -/
def FieldRule (t : TypeTag) (tag : BitVec 4) (w : Nat) (val : List Byte → BitVec 128)
    (value : List Byte → FieldValue) : Prop :=
  t.code = tag ∧ rowWidth t = w ∧
    ∀ (m : List Byte) (cidx roff : Half), m.length = w →
      extract t m = val m ∧ abstractValue t m = value m ∧
        FieldRecord.value { cidx := cidx, tag := tag, roff := roff, val := val m } = some (value m)

/-- During a DEC of group `g`, a row of this instruction whose address lies in the window and whose `w` bytes `m` are
captured bytes emits exactly one record, with this `val` and this abstract value, and the interpreter goes on to the
next row; nothing else changes. -/
def RowEmits (row : Half → Instr) (tag : BitVec 4) (w : Nat) (val : List Byte → BitVec 128)
    (value : List Byte → FieldValue) : Prop :=
  ∀ (s : State) (g : Group) (n addr : Half) (m : List Byte) (base roff : Nat),
    s.run = .decoding g n → base = (groupRecord s.cfg g).base.toNat → addr.toNat = base + roff → roff < 0x200 →
    roff + w ≤ s.len.toNat - s.poff.toNat → m.length = w →
    (∀ k, k < w → Memory.read? s.mem (s.poff.toNat + roff + k) = m[k]?) →
    ∃ r : FieldRecord,
      r = { cidx := s.cidx, tag := tag, roff := BitVec.ofNat 16 roff, val := val m } ∧ r.value = some (value m) ∧
      exec (row addr) s =
        .next { s with fld := s.fld ++ [r], cidx := s.cidx + 1#16, run := .decoding g (n + 1#16) }

/-- The parameters the spec allows, by their fields: the bounds of R5 and R8, and the well-formed catalogues of R8 and
R101. -/
def AllowedParams (p : Params) : Prop :=
  6 ≤ p.bufCap ∧ p.bufCap ≤ 65535 ∧ p.catalog.length ≤ 65535 ∧
    (∀ d ∈ p.catalog, (d.extractLsb' 16 4).toNat ≤ 8 ∧ d.extractLsb' 20 12 = 0#12) ∧
    p.catalog.Pairwise (fun c d => c.extractLsb' 0 16 ≠ d.extractLsb' 0 16)

end Sys2Proof.Machine
end

