-- ==== Sys2Proof/Certificates/Slice0/Obligations.lean ====
section
/-! DEFINITION. The statements for the provers, in the order of OBLIGATIONS.json. Each one's docstring names the rule of
spec/ it formalises. -/

open Sys2Proof Sys2Proof.Machine

/-! ### Reset -/

/-- R281: the reset state; no buffer byte has a value. -/
def Obligations.ResetStateValues : Prop :=
  State.reset.crc = 0xFFFF#16 ∧ (∀ i : Fin 11, State.reset.req[i] = 0x00#8) ∧ State.reset.len = 0#16 ∧
    State.reset.cv = false ∧ State.reset.poff = 0#16 ∧ State.reset.pv = false ∧ State.reset.pg = 0#2 ∧
    State.reset.cidx = 0#16 ∧ State.reset.errs = 0x00#8 ∧ ∀ a, Memory.read? State.reset.mem a = none

/-- R280 to R283: while reset is asserted no command and no token is taken, a running command is abandoned, the registers
take the values of R281, and parameters and streams are untouched. -/
def Obligations.ResetInputActs : Prop :=
  ∀ s : State, s.rst = true →
    step s = .next { s with
      crc := 0xFFFF#16, req := Vector.replicate 11 0x00#8, mem := [], len := 0#16, cv := false, poff := 0#16,
      pv := false, pg := 0#2, cidx := 0#16, errs := 0x00#8, run := .idle }

/-- R8, R40: the invariant holds right after reset, for every well-formed choice of the parameters. -/
def Obligations.ResetSatisfiesInv : Prop :=
  Inv State.reset ∧ ∀ p s, instantiate p = some s → Inv s

/-- R40: every step keeps the invariant. -/
def Obligations.StepKeepsInv : Prop :=
  ∀ s t : State, Inv s → step s = .next t → Inv t

/-- R94, R243, R247: the unit never stops by itself; from a state with the invariant a step is never a fault or a
refusal. -/
def Obligations.StepNeverStops : Prop :=
  ∀ s : State, Inv s → ∃ t, step s = .next t

/-! ### Decoding and fetching -/

/-- R28: with no command running, the first word of CMD is taken and the instruction it decodes to is executed. -/
def Obligations.StepRunsDecodedCommand : Prop :=
  ∀ (s : State) (w : Word) (ws : List Word) (i : Instr),
    s.rst = false → s.run = .idle → s.cmd = w :: ws → decodeCommand w = .ok i →
    step s = exec i { s with cmd := ws }

/-- R29, R65: while DEC runs, the row at `cidx` is fetched and the instruction it decodes to is executed. -/
def Obligations.StepRunsDecodedRow : Prop :=
  ∀ (s : State) (g : Group) (n : Half) (d : Word) (i : Instr),
    s.rst = false → s.run = .decoding g n → s.cfg.catalog[s.cidx.toNat]? = some d → decodeDescriptor d = .ok i →
    step s = exec i s

/-- R285: with no command running and CMD empty, nothing changes (the model's choice of a step there: log entry 6). -/
def Obligations.StepWaitsForCommand : Prop :=
  ∀ s : State, s.rst = false → s.run = .idle → s.cmd = [] → step s = .next s

/-- R92, R98, R109: decoding an encoded instruction gives it back, at both levels and for every operand. -/
def Obligations.DecodeOfEncode : Prop :=
  ∀ i : Instr, (i.isCommand = true → decodeCommand (encode i) = .ok i) ∧
    (i.isCommand = false → decodeDescriptor (encode i) = .ok i)

/-- R92, R98: a word that decodes at a level is the encoding of what it decodes to, so no bit of it is dropped. -/
def Obligations.EncodeOfDecode : Prop :=
  ∀ (w : Word) (i : Instr), (decodeCommand w = .ok i → i.isCommand = true ∧ encode i = w) ∧
    (decodeDescriptor w = .ok i → i.isCommand = false ∧ encode i = w)

/-- R94: the legal words are those that decode to a well-formed command. -/
def Obligations.LegalWordsDecode : Prop :=
  ∀ w : Word, LegalCommandWord w ↔ ∃ i, decodeCommand w = .ok i ∧ i.wellFormed = true

/-- R94, R232: an illegal word raises IllegalCommand and has no other effect. -/
def Obligations.IllegalWordRaises : Prop :=
  ∀ (s : State) (w : Word) (ws : List Word),
    s.rst = false → s.run = .idle → s.cmd = w :: ws → ¬ LegalCommandWord w →
    step s = .next { s with
      cmd := ws, errs := s.errs ||| 0x40#8, cpl := s.cpl ++ [{ err := 6#4, result := 0#16 }] }

/-- R94, R232, R245: the group operand 0 is illegal, and is found before the address or the order of commands is
checked. -/
def Obligations.GroupZeroRaisesIllegal : Prop :=
  ∀ (s : State) (i : Instr), (∃ a, i = .req a 0#2) ∨ i = .loc 0#2 ∨ i = .dec 0#2 →
    exec i s = .next { s with
      errs := s.errs ||| 0x40#8, cpl := s.cpl ++ [{ err := 6#4, result := 0#16 }], run := .idle }

/-- Words written out from R92, R98 and R233 decode to the instructions they stand for; two are refused. -/
def Obligations.WrittenWordsDecode : Prop :=
  decodeCommand 0x00000001#32 = .ok .crci ∧ decodeCommand 0x0000FF02#32 = .ok (.crcb 0xFF#8) ∧
    decodeCommand 0x00010110#32 = .ok (.req 1#8 1#2) ∧ decodeCommand 0x00030012#32 = .ok (.loc 3#2) ∧
    decodeDescriptor 0x00051004#32 = .ok (.i32 0x1004#16) ∧ decodeDescriptor 0x00081204#32 = .ok (.text8 0x1204#16) ∧
    decodeCommand 0x00000000#32 = .error .reservedOpcode ∧ decodeCommand 0x80000003#32 = .error .reservedBits

/-! ### The CRC-16 engine -/

/-- R131, R133: the table is the one the generating law gives, and one table step is the exclusive-or of the byte and
eight conditional shift steps (the spec's own, from general knowledge: log entry 11). -/
def Obligations.CrcTableAndBitSerialStep : Prop :=
  (crcTable.length = 256 ∧ ∀ i : Byte, crct i = crcShifts 8 (i.setWidth 16)) ∧
    ∀ (r : Half) (b : Byte), crcStep r b = crcShifts 8 (r ^^^ b.setWidth 16)

/-- R134: CRCI, its word and its effect. -/
def Obligations.CrciResult : Prop :=
  encode .crci = 0x00000001#32 ∧
    ∀ s : State, exec .crci s = .next { s with
      crc := 0xFFFF#16, cpl := s.cpl ++ [{ err := 0#4, result := 0xFFFF#16 }], run := .idle }

/-- R135: CRCB, its word and its effect, with CrcStep written by R131's formula. -/
def Obligations.CrcbResult : Prop :=
  (∀ a : Byte, (encode (.crcb a)).toNat = 0x00000002 + a.toNat * 2 ^ 8) ∧
    ∀ (s : State) (a : Byte) (t c : Half), t = s.crc ^^^ a.setWidth 16 →
      c = (t >>> 8) ^^^ crcTable.getD (t.toNat % 256) 0#16 →
      exec (.crcb a) s = .next { s with
        crc := c, cpl := s.cpl ++ [{ err := 0#4, result := c }], run := .idle }

/-- R136: CRCR, its word and its effect. -/
def Obligations.CrcrResult : Prop :=
  encode .crcr = 0x00000003#32 ∧
    ∀ s : State, exec .crcr s = .next { s with
      cpl := s.cpl ++ [{ err := 0#4, result := s.crc }], run := .idle }

/-- R137: CRCI, one CRCB per byte of a span, CRCR, issued one after the other, give the span's CRC16 in the last
completion; every command completes without error, and nothing but `crc`, CMD and CPL changes. The CRC of no bytes is
0xFFFF, and feeding one span after another is feeding both. -/
def Obligations.CrcOfSpan : Prop :=
  (∀ (s : State) (bs : List Byte) (rest : List Word),
    s.rst = false → s.run = .idle →
    s.cmd = encode .crci :: (bs.map fun b => encode (.crcb b)) ++ encode .crcr :: rest →
    ∃ (t : State) (mid : List Completion),
      steps (bs.length + 2) s = .next t ∧ mid.length = bs.length + 1 ∧
      (∀ c ∈ mid, c.err = 0#4) ∧
      t = { s with
        crc := crc16 bs, cmd := rest, cpl := s.cpl ++ mid ++ [{ err := 0#4, result := crc16 bs }] }) ∧
  crc16 [] = 0xFFFF#16 ∧
  ∀ (r : Half) (bs cs : List Byte), crcFeed r (bs ++ cs) = crcFeed (crcFeed r bs) cs

/-- R138: a message followed by its own CRC, low byte first, has CRC zero. -/
def Obligations.CrcOfMessageWithCrc : Prop :=
  ∀ bs : List Byte, crc16 (bs ++ [(crc16 bs).extractLsb' 0 8, (crc16 bs).extractLsb' 8 8]) = 0#16

/-! ### Status -/

/-- R36, R230: STAT, its word; it returns the status word and writes nothing else. -/
def Obligations.StatResult : Prop :=
  encode .stat = 0x00000004#32 ∧
    ∀ s : State, ∃ v : Half,
      exec .stat s = .next { s with cpl := s.cpl ++ [{ err := 0#4, result := v }], run := .idle } ∧
      v.extractLsb' 0 8 = s.errs ∧ v.getLsbD 8 = s.cv ∧ v.getLsbD 9 = s.pv ∧ v.extractLsb' 10 2 = s.pg ∧
      v.extractLsb' 12 4 = 0#4

/-! ### The frame builder -/

/-- R95, R150: REQ with an address of 1 to 15 builds the 11-byte frame, leaves its CRC in `crc`, and sends it. -/
def Obligations.ReqSendsFrame : Prop :=
  ∀ (s : State) (a : Byte) (g : Group) (sel : Byte) (c : Half) (f : Vector Byte 11),
    1 ≤ a.toNat → a.toNat ≤ 15 →
    sel = (match g with | .g1 => 0x1E#8 | .g2 => 0x20#8 | .g3 => 0x1C#8) →
    c = crc16 [a, s.cfg.opcode0, s.cfg.opcode1, sel, 0#8, 0#8, 0#8, 0#8, s.cfg.reqByte8] →
    f.toList = [a, s.cfg.opcode0, s.cfg.opcode1, sel, 0#8, 0#8, 0#8, 0#8, s.cfg.reqByte8,
      c.extractLsb' 0 8, c.extractLsb' 8 8] →
    exec (.req a (groupBits g)) s = .next { s with
      req := f, crc := c, tx := s.tx ++ f.toList, cpl := s.cpl ++ [{ err := 0#4, result := c }], run := .idle }

/-- R152: REQ with an address outside 1 to 15 raises InvalidAddress and sends nothing; with an address of 1 to 15 it
completes without error. -/
def Obligations.ReqRejectsAddress : Prop :=
  ∀ (s : State) (a : Byte) (g : Group),
    (a.toNat = 0 ∨ 15 < a.toNat → exec (.req a (groupBits g)) s = .next { s with
      errs := s.errs ||| 0x04#8, cpl := s.cpl ++ [{ err := 2#4, result := 0#16 }], run := .idle }) ∧
    (1 ≤ a.toNat → a.toNat ≤ 15 → ∃ t c, exec (.req a (groupBits g)) s = .next t ∧
      t.cpl = s.cpl ++ [{ err := 0#4, result := c }] ∧ t.errs = s.errs)

/-- R15, R138, R150: whatever a step sends is nothing, or one whole 11-byte frame that is held in `req` and whose CRC over
all 11 bytes is zero. That reset never lands inside a REQ, where R283 lets it leave a part of a frame on TX, is the
model's choice: log entry 13. -/
def Obligations.SentBytesAreFrames : Prop :=
  ∀ s t : State, step s = .next t →
    t.tx = s.tx ∨ (t.tx = s.tx ++ t.req.toList ∧ crc16 t.req.toList = 0#16 ∧ t.crc = crc16 (t.req.toList.take 9))

/-! ### The response capturer -/

/-- R167: at least 6 and fewer than BUF_CAP bytes, then Quiet. The bytes are at indices 0 upward; every other index reads
as before. -/
def Obligations.CapUntilQuiet : Prop :=
  ∀ (s : State) (bs : List Byte) (rest : List Token),
    s.rx = bs.map .byte ++ .quiet :: rest → 6 ≤ bs.length → bs.length < s.cfg.bufCap → s.cfg.bufCap ≤ 65535 →
    ∃ m, (∀ a, Memory.read? m a = if a < bs.length then bs[a]? else Memory.read? s.mem a) ∧
      exec .cap s = .next { s with
        mem := m, len := BitVec.ofNat 16 bs.length, cv := true, pv := false, rx := rest,
        cpl := s.cpl ++ [{ err := 0#4, result := BitVec.ofNat 16 bs.length }], run := .idle }

/-- R168: BUF_CAP bytes end the capture, and whatever follows them stays on RX. -/
def Obligations.CapUntilFull : Prop :=
  ∀ (s : State) (bs : List Byte) (rest : List Token),
    s.rx = bs.map .byte ++ rest → bs.length = s.cfg.bufCap → 6 ≤ s.cfg.bufCap → s.cfg.bufCap ≤ 65535 →
    ∃ m, (∀ a, Memory.read? m a = if a < bs.length then bs[a]? else Memory.read? s.mem a) ∧
      exec .cap s = .next { s with
        mem := m, len := BitVec.ofNat 16 bs.length, cv := true, pv := false, rx := rest,
        cpl := s.cpl ++ [{ err := 0#4, result := BitVec.ofNat 16 bs.length }], run := .idle }

/-- R169: fewer than 6 bytes before Quiet raise ShortResponse; the bytes and `len` stay, the tokens are consumed. -/
def Obligations.CapShortResponse : Prop :=
  ∀ (s : State) (bs : List Byte) (rest : List Token),
    s.rx = bs.map .byte ++ .quiet :: rest → bs.length < 6 → 6 ≤ s.cfg.bufCap →
    ∃ m, (∀ a, Memory.read? m a = if a < bs.length then bs[a]? else Memory.read? s.mem a) ∧
      exec .cap s = .next { s with
        mem := m, len := BitVec.ofNat 16 bs.length, cv := false, pv := false, rx := rest,
        errs := s.errs ||| 0x08#8, cpl := s.cpl ++ [{ err := 3#4, result := BitVec.ofNat 16 bs.length }],
        run := .idle }

/-- R166: with room in the buffer and no token left CAP waits, without a completion; while RX stays empty a step changes
nothing (the model's choice of a step there: log entry 5). -/
def Obligations.CapWaitsForToken : Prop :=
  (∀ (s : State) (bs : List Byte),
    s.rx = bs.map .byte → bs.length < s.cfg.bufCap → s.cfg.bufCap ≤ 65535 →
    ∃ m, (∀ a, Memory.read? m a = if a < bs.length then bs[a]? else Memory.read? s.mem a) ∧
      exec .cap s = .next { s with
        mem := m, len := BitVec.ofNat 16 bs.length, cv := false, pv := false, rx := [], run := .capturing }) ∧
  ∀ s : State, s.rst = false → s.run = .capturing → s.rx = [] → s.len.toNat < s.cfg.bufCap → step s = .next s

/-- R166, R253: when tokens arrive does not matter, only their order: a CAP that got `ts` and then, waiting, `us` ends as
one that found both; a CAP that ended on `ts` leaves `us` on RX. -/
def Obligations.CapIgnoresArrivalTime : Prop :=
  ∀ (s t : State) (ts us : List Token), s.rst = false → exec .cap { s with rx := ts } = .next t →
    (t.run = .capturing → exec .cap { s with rx := ts ++ us } = step (deliver us t)) ∧
    (t.run ≠ .capturing → exec .cap { s with rx := ts ++ us } = .next (deliver us t))

/-! ### The frame locator -/

/-- R183: the smallest position in the scan range that shows signature and identifier is taken. -/
def Obligations.LocFindsFirstFrame : Prop :=
  ∀ (s : State) (g : Group) (bs : List Byte) (p : Nat),
    s.cv = true → readBytes s.mem 0 s.len.toNat = .ok bs →
    FrameStands (groupRecord s.cfg g).gid bs p → (∀ q, q < p → ¬ FrameStands (groupRecord s.cfg g).gid bs q) →
    exec (.loc (groupBits g)) s = .next { s with
      poff := BitVec.ofNat 16 (p + 6), pv := true, pg := groupBits g,
      cpl := s.cpl ++ [{ err := 0#4, result := BitVec.ofNat 16 (p + 6) }], run := .idle }

/-- R184: no position in the scan range matches. -/
def Obligations.LocFindsNothing : Prop :=
  ∀ (s : State) (g : Group) (bs : List Byte),
    s.cv = true → readBytes s.mem 0 s.len.toNat = .ok bs →
    (∀ q, ¬ FrameStands (groupRecord s.cfg g).gid bs q) →
    exec (.loc (groupBits g)) s = .next { s with
      pv := false, errs := s.errs ||| 0x10#8, cpl := s.cpl ++ [{ err := 4#4, result := 0#16 }], run := .idle }

/-- R187: without a valid capture LOC raises OutOfSequence and changes nothing else. -/
def Obligations.LocOutOfSequence : Prop :=
  ∀ (s : State) (g : Group), s.cv = false →
    exec (.loc (groupBits g)) s = .next { s with
      errs := s.errs ||| 0x80#8, cpl := s.cpl ++ [{ err := 7#4, result := 0#16 }], run := .idle }

/-- The property of R183: N garbage bytes that hold no earlier match, then signature, identifier and a payload of at least
one byte, give payload offset N+6. -/
def Obligations.LocSkipsGarbage : Prop :=
  ∀ (s : State) (g : Group) (junk payload bs : List Byte) (gid : Half),
    s.cv = true → gid = (groupRecord s.cfg g).gid → payload ≠ [] →
    bs = junk ++ [0x55#8, 0xAA#8, 0xEB#8, 0x90#8, gid.extractLsb' 0 8, gid.extractLsb' 8 8] ++ payload →
    readBytes s.mem 0 s.len.toNat = .ok bs → (∀ q, q < junk.length → ¬ FrameStands gid bs q) →
    exec (.loc (groupBits g)) s = .next { s with
      poff := BitVec.ofNat 16 (junk.length + 6), pv := true, pg := groupBits g,
      cpl := s.cpl ++ [{ err := 0#4, result := BitVec.ofNat 16 (junk.length + 6) }], run := .idle }

/-! ### The field decoder

DEC is executed as the level-2 interpreter it is described as: a catalogue row is a step (the model's choice, log entry 4).
The statements about one row rest on it; ExtractGivesFieldValues and DecRefinesDecodeGroup do not. -/

/-- R196, its precondition met: DEC starts the level-2 interpreter at row 0 (that each row is a step of its own is the
model's choice, log entry 4). -/
def Obligations.DecStarts : Prop :=
  ∀ (s : State) (g : Group), s.pv = true → s.pg = groupBits g →
    exec (.dec (groupBits g)) s = .next { s with cidx := 0#16, run := .decoding g 0#16 }

/-- R201: no located frame of this group. -/
def Obligations.DecOutOfSequence : Prop :=
  ∀ (s : State) (g : Group), s.pv = false ∨ s.pg ≠ groupBits g →
    exec (.dec (groupBits g)) s = .next { s with
      errs := s.errs ||| 0x80#8, cpl := s.cpl ++ [{ err := 7#4, result := 0#16 }], run := .idle }

/-- R203 to R213: the number and the width of each type, the `val` Extract gives for its bytes, and the abstract value,
also as a reader of the field record recovers it. -/
def Obligations.ExtractGivesFieldValues : Prop :=
  FieldRule .u8 0#4 1 (fun m => BitVec.ofNat 128 (byteAt m 0).toNat) (fun m => .natural (byteAt m 0).toNat) ∧
  FieldRule .i8 1#4 1 (fun m => (BitVec.ofInt 32 (twosComplement 8 (byteAt m 0).toNat)).setWidth 128)
    (fun m => .signed (twosComplement 8 (byteAt m 0).toNat)) ∧
  FieldRule .u16 2#4 2 (fun m => BitVec.ofNat 128 ((byteAt m 0).toNat + 256 * (byteAt m 1).toNat))
    (fun m => .natural ((byteAt m 0).toNat + 256 * (byteAt m 1).toNat)) ∧
  FieldRule .i16 3#4 2
    (fun m => (BitVec.ofInt 32 (twosComplement 16 ((byteAt m 0).toNat + 256 * (byteAt m 1).toNat))).setWidth 128)
    (fun m => .signed (twosComplement 16 ((byteAt m 0).toNat + 256 * (byteAt m 1).toNat))) ∧
  FieldRule .u32 4#4 4 (fun m => BitVec.ofNat 128 (leNat m)) (fun m => .natural (leNat m)) ∧
  FieldRule .i32 5#4 4 (fun m => BitVec.ofNat 128 (leNat m)) (fun m => .signed (twosComplement 32 (leNat m))) ∧
  FieldRule .f32 6#4 4 (fun m => BitVec.ofNat 128 (leNat m)) (fun m => .pattern (BitVec.ofNat 32 (leNat m))) ∧
  FieldRule .text16 7#4 16 (fun m => BitVec.ofNat 128 (leNat m)) (fun m => .text (m ++ [0x00#8])) ∧
  FieldRule .text8 8#4 8 (fun m => BitVec.ofNat 128 (leNat m)) (fun m => .text (m ++ [0x00#8]))

/-- R204: U8. -/
def Obligations.RowU8 : Prop :=
  RowEmits .u8 0#4 1 (fun m => BitVec.ofNat 128 (byteAt m 0).toNat) (fun m => .natural (byteAt m 0).toNat)

/-- R205: I8. -/
def Obligations.RowI8 : Prop :=
  RowEmits .i8 1#4 1 (fun m => (BitVec.ofInt 32 (twosComplement 8 (byteAt m 0).toNat)).setWidth 128)
    (fun m => .signed (twosComplement 8 (byteAt m 0).toNat))

/-- R206: U16. -/
def Obligations.RowU16 : Prop :=
  RowEmits .u16 2#4 2 (fun m => BitVec.ofNat 128 ((byteAt m 0).toNat + 256 * (byteAt m 1).toNat))
    (fun m => .natural ((byteAt m 0).toNat + 256 * (byteAt m 1).toNat))

/-- R207: I16. -/
def Obligations.RowI16 : Prop :=
  RowEmits .i16 3#4 2
    (fun m => (BitVec.ofInt 32 (twosComplement 16 ((byteAt m 0).toNat + 256 * (byteAt m 1).toNat))).setWidth 128)
    (fun m => .signed (twosComplement 16 ((byteAt m 0).toNat + 256 * (byteAt m 1).toNat)))

/-- R208: U32. -/
def Obligations.RowU32 : Prop :=
  RowEmits .u32 4#4 4 (fun m => BitVec.ofNat 128 (leNat m)) (fun m => .natural (leNat m))

/-- R209: I32. -/
def Obligations.RowI32 : Prop :=
  RowEmits .i32 5#4 4 (fun m => BitVec.ofNat 128 (leNat m)) (fun m => .signed (twosComplement 32 (leNat m)))

/-- R210: F32, the pattern bit for bit. -/
def Obligations.RowF32 : Prop :=
  RowEmits .f32 6#4 4 (fun m => BitVec.ofNat 128 (leNat m)) (fun m => .pattern (BitVec.ofNat 32 (leNat m)))

/-- R211, R213: Text16, byte k of the field at bits 8k+7:8k, and the terminator in the abstract value. -/
def Obligations.RowText16 : Prop :=
  RowEmits .text16 7#4 16 (fun m => BitVec.ofNat 128 (leNat m)) (fun m => .text (m ++ [0x00#8]))

/-- R212, R213: Text8. -/
def Obligations.RowText8 : Prop :=
  RowEmits .text8 8#4 8 (fun m => BitVec.ofNat 128 (leNat m)) (fun m => .text (m ++ [0x00#8]))

/-- R197: a row of any type whose address is outside the window is skipped. -/
def Obligations.RowOutsideWindowSkipped : Prop :=
  ∀ (s : State) (t : TypeTag) (addr : Half) (g : Group) (n : Half), s.run = .decoding g n →
    addr.toNat < (groupRecord s.cfg g).base.toNat ∨ (groupRecord s.cfg g).base.toNat + 0x200 ≤ addr.toNat →
    exec (Instr.ofRow t addr) s = .next { s with cidx := s.cidx + 1#16 }

/-- R198, R200: a row of any type in the window that does not fit ends the DEC with IncompleteData; `cidx` stays, and the
result is the number of records emitted. -/
def Obligations.RowIncompleteData : Prop :=
  ∀ (s : State) (t : TypeTag) (addr : Half) (g : Group) (n : Half) (w base roff : Nat), s.run = .decoding g n →
    w = (match t with
      | .u8 => 1 | .i8 => 1 | .u16 => 2 | .i16 => 2 | .u32 => 4 | .i32 => 4 | .f32 => 4 | .text16 => 16 | .text8 => 8) →
    base = (groupRecord s.cfg g).base.toNat → addr.toNat = base + roff → roff < 0x200 →
    s.len.toNat - s.poff.toNat < roff + w →
    exec (Instr.ofRow t addr) s = .next { s with
      errs := s.errs ||| 0x20#8, cpl := s.cpl ++ [{ err := 5#4, result := n }], run := .idle }

/-- R202: past the last row DEC completes with the number of records. -/
def Obligations.DecEndsAfterLastRow : Prop :=
  ∀ (s : State) (g : Group) (n : Half), s.rst = false → s.run = .decoding g n →
    s.cfg.nDesc ≤ s.cidx.toNat →
    step s = .next { s with cpl := s.cpl ++ [{ err := 0#4, result := n }], run := .idle }

/-- R196 to R202: DEC and at most N_DESC + 1 further steps do what `decodeGroup` says of the catalogue and the payload
bytes: its records are appended, `cidx` is the failing row or N_DESC, one completion is appended; nothing else
changes. -/
def Obligations.DecRefinesDecodeGroup : Prop :=
  ∀ (s : State) (g : Group) (payload : List Byte),
    s.rst = false → s.cfg.wellFormed = true → s.pv = true → s.pg = groupBits g →
    readBytes s.mem s.poff.toNat (s.len.toNat - s.poff.toNat) = .ok payload →
    ∃ (s' : State) (k : Nat), exec (.dec (groupBits g)) s = .next s' ∧ k ≤ s.cfg.nDesc + 1 ∧
      steps k s' = .next (decodedState s (decodeGroup (groupRecord s.cfg g).base payload 0 s.cfg.catalog))

/-! ### Rules about every step -/

/-- R22: no element of an output stream is reordered, duplicated or dropped, and the input streams are consumed in
order. -/
def Obligations.StreamsKeepOrder : Prop :=
  ∀ s t : State, step s = .next t →
    s.tx <+: t.tx ∧ s.fld <+: t.fld ∧ s.cpl <+: t.cpl ∧ t.cmd <:+ s.cmd ∧ t.rx <:+ s.rx

/-- R103, R240, R246: a step that ends a command appends exactly one completion record, with a code the unit produces, and
sets exactly the sticky bit of that code; any other step appends none and leaves ERRS alone. -/
def Obligations.OneCompletionPerCommand : Prop :=
  ∀ s t : State, s.rst = false → step s = .next t →
    (t.run = .idle ∧ (s.run ≠ .idle ∨ s.cmd ≠ []) ∧
      ∃ c : Completion, t.cpl = s.cpl ++ [c] ∧ c.err.toNat ≤ 7 ∧ c.err ≠ 1#4 ∧
        t.errs = if c.err = 0#4 then s.errs else s.errs ||| (1#8 <<< c.err.toNat)) ∨
    (t.cpl = s.cpl ∧ t.errs = s.errs ∧ (t.run ≠ .idle ∨ t = s))

/-- R35: no bit of ERRS is cleared except by reset, and bits 0 and 1 are never set. -/
def Obligations.ErrsIsSticky : Prop :=
  ∀ s t : State, s.rst = false → step s = .next t →
    (∀ k, s.errs.getLsbD k = true → t.errs.getLsbD k = true) ∧
    t.errs.getLsbD 0 = s.errs.getLsbD 0 ∧ t.errs.getLsbD 1 = s.errs.getLsbD 1

/-- R21, R34, R78, R282: no step changes the parameters. Nor does one change the reset input (R280): that this input is a
field of the state which no step writes is the model's choice, log entry 13. -/
def Obligations.ParametersNeverChange : Prop :=
  ∀ s t : State, step s = .next t → t.cfg = s.cfg ∧ t.rst = s.rst

/-- R24: only CRCI, CRCB and REQ change `crc`. -/
def Obligations.OnlyCrcCommandsWriteCrc : Prop :=
  ∀ s t : State, s.rst = false → step s = .next t → t.crc ≠ s.crc →
    s.run = .idle ∧ ∃ w ws, s.cmd = w :: ws ∧
      (w = encode .crci ∨ (∃ a, w = encode (.crcb a)) ∨ ∃ a g, w = encode (.req a g))

/-- R63: only CAP writes the buffer, and never at or above BUF_CAP. -/
def Obligations.OnlyCapWritesBuffer : Prop :=
  ∀ s t : State, s.rst = false → step s = .next t →
    (t.mem ≠ s.mem → s.run = .capturing ∨ (s.run = .idle ∧ ∃ ws, s.cmd = encode .cap :: ws)) ∧
    ∀ a, s.cfg.bufCap ≤ a → Memory.read? t.mem a = Memory.read? s.mem a

/-- R26, R62: no rule reads `buf[i]` for `i >= len`: two states that differ only there step alike. -/
def Obligations.BytesBeyondLenAreNotRead : Prop :=
  ∀ (s t : State) (m : Memory), (∀ a, a < s.len.toNat → Memory.read? m a = Memory.read? s.mem a) →
    step s = .next t →
    ∃ m', step { s with mem := m } = .next { t with mem := m' } ∧
      ∀ a, a < t.len.toNat → Memory.read? m' a = Memory.read? t.mem a

/-- R15: while a command runs no other is taken, and only what the running command writes changes. -/
def Obligations.RunningCommandIsAlone : Prop :=
  ∀ s t : State, s.rst = false → step s = .next t →
    (s.run = .capturing →
      t = { s with mem := t.mem, len := t.len, cv := t.cv, errs := t.errs, rx := t.rx, cpl := t.cpl, run := t.run }) ∧
    (∀ g n, s.run = .decoding g n →
      t = { s with cidx := t.cidx, errs := t.errs, fld := t.fld, cpl := t.cpl, run := t.run })

/-! ### What is refused -/

/-- R5, R8, R101: a model is instantiated with allowed parameters, and with no others (that `instantiate` refuses the
others, the bounds of BUF_CAP and N_DESC among them, and that its reset state has empty streams are the model's choices:
log entries 1 and 19). -/
def Obligations.OnlyAllowedParametersInstantiate : Prop :=
  ∀ p : Params, (AllowedParams p → instantiate p = some (State.resetWith p)) ∧
    (¬ AllowedParams p → instantiate p = none)

/-- R2, R101: a catalogue row outside a DEC, and an ill-formed descriptor word under one, are refused by name (that the
model refuses there is its own choice: log entries 1 and 10). -/
def Obligations.RowRefusals : Prop :=
  (∀ (s : State) (t : TypeTag) (addr : Half), s.run = .idle ∨ s.run = .capturing →
    exec (Instr.ofRow t addr) s = .refused .rowOutsideDec) ∧
  ∀ (s : State) (g : Group) (n : Half) (d : Word),
    s.rst = false → s.run = .decoding g n → s.cfg.catalog[s.cidx.toNat]? = some d →
    8 < (d.extractLsb' 16 4).toNat ∨ d.extractLsb' 20 12 ≠ 0#12 →
    step s = .refused (.illFormedDescriptor d)

/-- R62: a buffer byte that holds no value has none to give: a row or a scan that would read one faults at the first such
index (the model's choice, log entry 7; no state with the invariant has such a byte, StepNeverStops). -/
def Obligations.MissingByteFaults : Prop :=
  (∀ (s : State) (t : TypeTag) (addr : Half) (g : Group) (n : Half) (base roff k : Nat), s.run = .decoding g n →
    base = (groupRecord s.cfg g).base.toNat → addr.toNat = base + roff → roff < 0x200 →
    roff + rowWidth t ≤ s.len.toNat - s.poff.toNat → k < rowWidth t →
    Memory.read? s.mem (s.poff.toNat + roff + k) = none →
    (∀ j, j < k → (Memory.read? s.mem (s.poff.toNat + roff + j)).isSome = true) →
    exec (Instr.ofRow t addr) s = .fault (.unwrittenByte (s.poff.toNat + roff + k))) ∧
  ∀ (s : State) (g : Group) (k : Nat), s.cv = true → 6 < s.len.toNat → k < 6 → Memory.read? s.mem k = none →
    (∀ j, j < k → (Memory.read? s.mem j).isSome = true) →
    exec (.loc (groupBits g)) s = .fault (.unwrittenByte k)
end

