-- ==== Sys2Proof/Laws/Memory.lean ====
section
/-! SUPPORT. The laws of the response buffer: reads after a write, the canonical form, and reads of several bytes. -/

namespace Sys2Proof.Machine

@[simp] theorem read?_nil (a : Nat) : Memory.read? [] a = none := rfl

theorem read?_cons (k : Nat) (b : Byte) (rest : Memory) (a : Nat) :
    Memory.read? ((k, b) :: rest) a = if k = a then some b else Memory.read? rest a := rfl

/-- A read of the index just written gives the byte written. -/
@[simp] theorem read?_write_same (m : Memory) (a : Nat) (v : Byte) : Memory.read? (Memory.write m a v) a = some v := by
  induction m with
  | nil => simp [Memory.write, read?_cons]
  | cons c rest ih =>
    obtain ⟨k, b⟩ := c
    simp only [Memory.write]
    split
    · simp [read?_cons]
    · split
      · simp [read?_cons]
      · rw [read?_cons, if_neg (by omega), ih]

/-- A write leaves every other index alone. -/
theorem read?_write_other (m : Memory) (a b : Nat) (v : Byte) (h : b ≠ a) :
    Memory.read? (Memory.write m a v) b = Memory.read? m b := by
  induction m with
  | nil => simp [Memory.write, read?_cons, h.symm]
  | cons c rest ih =>
    obtain ⟨k, x⟩ := c
    simp only [Memory.write]
    split
    · rw [read?_cons, if_neg h.symm]
    · split
      · subst k; rw [read?_cons, read?_cons, if_neg h.symm, if_neg h.symm]
      · rw [read?_cons, read?_cons, ih]

theorem read?_write (m : Memory) (a b : Nat) (v : Byte) :
    Memory.read? (Memory.write m a v) b = if b = a then some v else Memory.read? m b := by
  split
  · subst b; exact read?_write_same m a v
  · exact read?_write_other m a b v ‹_›

/-- The cells after a write are the cell written and cells there were before. -/
theorem mem_write (m : Memory) (a : Nat) (v : Byte) (c : Host.Cell) (h : c ∈ Memory.write m a v) :
    c = (a, v) ∨ c ∈ m := by
  induction m with
  | nil => simpa [Memory.write] using h
  | cons d rest ih =>
    obtain ⟨k, b⟩ := d
    simp only [Memory.write] at h
    split at h
    · simpa using h
    · split at h
      · rcases List.mem_cons.1 h with h | h
        · exact .inl h
        · exact .inr (List.mem_cons_of_mem _ h)
      · rcases List.mem_cons.1 h with h | h
        · exact .inr (h ▸ List.mem_cons_self)
        · rcases ih h with h | h
          · exact .inl h
          · exact .inr (List.mem_cons_of_mem _ h)

@[simp] theorem wf_nil : Memory.wf [] := List.Pairwise.nil

/-- A write keeps the canonical form. -/
theorem write_wf (m : Memory) (a : Nat) (v : Byte) (h : Memory.wf m) : Memory.wf (Memory.write m a v) := by
  induction m with
  | nil => exact List.pairwise_singleton _ _
  | cons d rest ih =>
    obtain ⟨k, b⟩ := d
    have h' := List.pairwise_cons.1 h
    simp only [Memory.write]
    split
    · refine List.pairwise_cons.2 ⟨fun c hc => ?_, h⟩
      rcases List.mem_cons.1 hc with rfl | hc
      · assumption
      · have := h'.1 c hc; simp only at this ⊢; omega
    · split
      · subst k; exact List.pairwise_cons.2 ⟨h'.1, h'.2⟩
      · refine List.pairwise_cons.2 ⟨fun c hc => ?_, ih h'.2⟩
        rcases mem_write rest a v c hc with rfl | hc
        · simp only; omega
        · exact h'.1 c hc

/-- What a read of several bytes gives: as many bytes, each the byte at its index. -/
theorem readBytes_ok_iff (m : Memory) (a n : Nat) (bs : List Byte) :
    readBytes m a n = .ok bs ↔ bs.length = n ∧ ∀ k, k < n → Memory.read? m (a + k) = bs[k]? := by
  induction n generalizing a bs with
  | zero =>
    constructor
    · rintro ⟨⟩; exact ⟨rfl, fun k hk => absurd hk (Nat.not_lt_zero k)⟩
    · rintro ⟨h, -⟩; rw [List.length_eq_zero_iff.1 h]; rfl
  | succ n ih =>
    constructor
    · intro h
      simp only [readBytes] at h
      split at h
      · cases h
      · next b hb =>
        split at h
        · next cs hcs =>
          obtain ⟨hl, hr⟩ := (ih _ _).1 hcs
          cases h
          refine ⟨by simp [hl], fun k hk => ?_⟩
          cases k with
          | zero => simpa using hb
          | succ k =>
            have := hr k (by omega)
            rw [Nat.add_assoc, Nat.add_comm 1 k] at this
            simpa using this
        · cases h
    · rintro ⟨hl, hr⟩
      cases bs with
      | nil => simp at hl
      | cons b cs =>
        have h0 := hr 0 (by omega)
        have h1 : readBytes m (a + 1) n = .ok cs := (ih _ _).2 ⟨by simpa using hl, fun k hk => by
          have := hr (k + 1) (by omega)
          rw [Nat.add_assoc, Nat.add_comm 1 k]; simpa using this⟩
        simp only [Nat.add_zero, List.getElem?_cons_zero] at h0
        simp [readBytes, h0, h1]

/-- Where every index holds a value, the read gives bytes. -/
theorem readBytes_isOk (m : Memory) (a n : Nat) (h : ∀ k, k < n → (Memory.read? m (a + k)).isSome = true) :
    ∃ bs, readBytes m a n = .ok bs := by
  induction n generalizing a with
  | zero => exact ⟨[], rfl⟩
  | succ n ih =>
    obtain ⟨b, hb⟩ := Option.isSome_iff_exists.1 (h 0 (by omega))
    obtain ⟨bs, hbs⟩ := ih (a + 1) fun k hk => by
      have := h (k + 1) (by omega); rwa [show a + 1 + k = a + (k + 1) by omega]
    exact ⟨b :: bs, by simp only [Nat.add_zero] at hb; simp [readBytes, hb, hbs]⟩

/-- A read of several bytes looks at their indices only. -/
theorem readBytes_congr (m m' : Memory) (a n : Nat)
    (h : ∀ k, k < n → Memory.read? m (a + k) = Memory.read? m' (a + k)) : readBytes m a n = readBytes m' a n := by
  induction n generalizing a with
  | zero => rfl
  | succ n ih =>
    have h0 := h 0 (by omega)
    simp only [Nat.add_zero] at h0
    simp only [readBytes, h0, ih (a + 1) fun k hk => by
      have := h (k + 1) (by omega); rwa [show a + 1 + k = a + (k + 1) by omega]]

/-- A part of a read of several bytes. -/
theorem readBytes_sub (m : Memory) (a n : Nat) (bs : List Byte) (h : readBytes m a n = .ok bs) (k w : Nat)
    (hk : k + w ≤ n) : readBytes m (a + k) w = .ok ((bs.drop k).take w) := by
  obtain ⟨hl, hr⟩ := (readBytes_ok_iff m a n bs).1 h
  refine (readBytes_ok_iff _ _ _ _).2 ⟨by simp; omega, fun j hj => ?_⟩
  rw [Nat.add_assoc, hr (k + j) (by omega), List.getElem?_take, if_pos hj, List.getElem?_drop]

/-- MemRead inside the captured data (R62). -/
theorem memRead_inside (s : State) (a n : Nat) (h : a + n ≤ s.len.toNat) : memRead s a n = readBytes s.mem a n := if_pos h

/-- MemRead gives bytes only inside the captured data (R62). -/
theorem memRead_ok (s : State) (a n : Nat) (bs : List Byte) (h : memRead s a n = .ok bs) :
    a + n ≤ s.len.toNat ∧ readBytes s.mem a n = .ok bs := by
  unfold memRead at h
  split at h
  · exact ⟨‹_›, h⟩
  · cases h

end Sys2Proof.Machine
end

