-- ==== Sys2Proof/Laws/State.lean ====
section
/-! SUPPORT. One lemma per field per update: what each named update of the state leaves in each field. -/

namespace Sys2Proof.Machine

variable (s : State)

@[simp] theorem complete_cfg (r : Half) : (complete r s).cfg = s.cfg := rfl
@[simp] theorem complete_crc (r : Half) : (complete r s).crc = s.crc := rfl
@[simp] theorem complete_req (r : Half) : (complete r s).req = s.req := rfl
@[simp] theorem complete_mem (r : Half) : (complete r s).mem = s.mem := rfl
@[simp] theorem complete_len (r : Half) : (complete r s).len = s.len := rfl
@[simp] theorem complete_cv (r : Half) : (complete r s).cv = s.cv := rfl
@[simp] theorem complete_poff (r : Half) : (complete r s).poff = s.poff := rfl
@[simp] theorem complete_pv (r : Half) : (complete r s).pv = s.pv := rfl
@[simp] theorem complete_pg (r : Half) : (complete r s).pg = s.pg := rfl
@[simp] theorem complete_cidx (r : Half) : (complete r s).cidx = s.cidx := rfl
@[simp] theorem complete_errs (r : Half) : (complete r s).errs = s.errs := rfl
@[simp] theorem complete_cmd (r : Half) : (complete r s).cmd = s.cmd := rfl
@[simp] theorem complete_rx (r : Half) : (complete r s).rx = s.rx := rfl
@[simp] theorem complete_tx (r : Half) : (complete r s).tx = s.tx := rfl
@[simp] theorem complete_fld (r : Half) : (complete r s).fld = s.fld := rfl
@[simp] theorem complete_cpl (r : Half) : (complete r s).cpl = s.cpl ++ [⟨0#4, r⟩] := rfl
@[simp] theorem complete_rst (r : Half) : (complete r s).rst = s.rst := rfl
@[simp] theorem complete_run (r : Half) : (complete r s).run = .idle := rfl

@[simp] theorem raise_cfg (k : ErrorKind) (r : Half) : (raise k r s).cfg = s.cfg := rfl
@[simp] theorem raise_crc (k : ErrorKind) (r : Half) : (raise k r s).crc = s.crc := rfl
@[simp] theorem raise_req (k : ErrorKind) (r : Half) : (raise k r s).req = s.req := rfl
@[simp] theorem raise_mem (k : ErrorKind) (r : Half) : (raise k r s).mem = s.mem := rfl
@[simp] theorem raise_len (k : ErrorKind) (r : Half) : (raise k r s).len = s.len := rfl
@[simp] theorem raise_cv (k : ErrorKind) (r : Half) : (raise k r s).cv = s.cv := rfl
@[simp] theorem raise_poff (k : ErrorKind) (r : Half) : (raise k r s).poff = s.poff := rfl
@[simp] theorem raise_pv (k : ErrorKind) (r : Half) : (raise k r s).pv = s.pv := rfl
@[simp] theorem raise_pg (k : ErrorKind) (r : Half) : (raise k r s).pg = s.pg := rfl
@[simp] theorem raise_cidx (k : ErrorKind) (r : Half) : (raise k r s).cidx = s.cidx := rfl
@[simp] theorem raise_errs (k : ErrorKind) (r : Half) : (raise k r s).errs = setErrBit s.errs k := rfl
@[simp] theorem raise_cmd (k : ErrorKind) (r : Half) : (raise k r s).cmd = s.cmd := rfl
@[simp] theorem raise_rx (k : ErrorKind) (r : Half) : (raise k r s).rx = s.rx := rfl
@[simp] theorem raise_tx (k : ErrorKind) (r : Half) : (raise k r s).tx = s.tx := rfl
@[simp] theorem raise_fld (k : ErrorKind) (r : Half) : (raise k r s).fld = s.fld := rfl
@[simp] theorem raise_cpl (k : ErrorKind) (r : Half) : (raise k r s).cpl = s.cpl ++ [⟨k.code, r⟩] := rfl
@[simp] theorem raise_rst (k : ErrorKind) (r : Half) : (raise k r s).rst = s.rst := rfl
@[simp] theorem raise_run (k : ErrorKind) (r : Half) : (raise k r s).run = .idle := rfl

@[simp] theorem raiseIllegal_cfg : (raiseIllegal s).cfg = s.cfg := rfl
@[simp] theorem raiseIllegal_crc : (raiseIllegal s).crc = s.crc := rfl
@[simp] theorem raiseIllegal_req : (raiseIllegal s).req = s.req := rfl
@[simp] theorem raiseIllegal_mem : (raiseIllegal s).mem = s.mem := rfl
@[simp] theorem raiseIllegal_len : (raiseIllegal s).len = s.len := rfl
@[simp] theorem raiseIllegal_cv : (raiseIllegal s).cv = s.cv := rfl
@[simp] theorem raiseIllegal_poff : (raiseIllegal s).poff = s.poff := rfl
@[simp] theorem raiseIllegal_pv : (raiseIllegal s).pv = s.pv := rfl
@[simp] theorem raiseIllegal_pg : (raiseIllegal s).pg = s.pg := rfl
@[simp] theorem raiseIllegal_cidx : (raiseIllegal s).cidx = s.cidx := rfl
@[simp] theorem raiseIllegal_errs : (raiseIllegal s).errs = setErrBit s.errs .illegalCommand := rfl
@[simp] theorem raiseIllegal_cmd : (raiseIllegal s).cmd = s.cmd := rfl
@[simp] theorem raiseIllegal_rx : (raiseIllegal s).rx = s.rx := rfl
@[simp] theorem raiseIllegal_tx : (raiseIllegal s).tx = s.tx := rfl
@[simp] theorem raiseIllegal_fld : (raiseIllegal s).fld = s.fld := rfl
@[simp] theorem raiseIllegal_cpl : (raiseIllegal s).cpl = s.cpl ++ [⟨ErrorKind.illegalCommand.code, 0#16⟩] := rfl
@[simp] theorem raiseIllegal_rst : (raiseIllegal s).rst = s.rst := rfl
@[simp] theorem raiseIllegal_run : (raiseIllegal s).run = .idle := rfl

@[simp] theorem resetUnit_cfg : (resetUnit s).cfg = s.cfg := rfl
@[simp] theorem resetUnit_crc : (resetUnit s).crc = 0xFFFF#16 := rfl
@[simp] theorem resetUnit_req : (resetUnit s).req = Vector.replicate 11 0x00#8 := rfl
@[simp] theorem resetUnit_mem : (resetUnit s).mem = [] := rfl
@[simp] theorem resetUnit_len : (resetUnit s).len = 0#16 := rfl
@[simp] theorem resetUnit_cv : (resetUnit s).cv = false := rfl
@[simp] theorem resetUnit_poff : (resetUnit s).poff = 0#16 := rfl
@[simp] theorem resetUnit_pv : (resetUnit s).pv = false := rfl
@[simp] theorem resetUnit_pg : (resetUnit s).pg = 0#2 := rfl
@[simp] theorem resetUnit_cidx : (resetUnit s).cidx = 0#16 := rfl
@[simp] theorem resetUnit_errs : (resetUnit s).errs = 0x00#8 := rfl
@[simp] theorem resetUnit_cmd : (resetUnit s).cmd = s.cmd := rfl
@[simp] theorem resetUnit_rx : (resetUnit s).rx = s.rx := rfl
@[simp] theorem resetUnit_tx : (resetUnit s).tx = s.tx := rfl
@[simp] theorem resetUnit_fld : (resetUnit s).fld = s.fld := rfl
@[simp] theorem resetUnit_cpl : (resetUnit s).cpl = s.cpl := rfl
@[simp] theorem resetUnit_rst : (resetUnit s).rst = s.rst := rfl
@[simp] theorem resetUnit_run : (resetUnit s).run = .idle := rfl

@[simp] theorem sendRequest_cfg (a : Byte) (g : Group) : (sendRequest a g s).cfg = s.cfg := rfl
@[simp] theorem sendRequest_crc (a : Byte) (g : Group) : (sendRequest a g s).crc = requestCrc s.cfg a g := rfl
@[simp] theorem sendRequest_req (a : Byte) (g : Group) : (sendRequest a g s).req = requestFrame s.cfg a g := rfl
@[simp] theorem sendRequest_mem (a : Byte) (g : Group) : (sendRequest a g s).mem = s.mem := rfl
@[simp] theorem sendRequest_len (a : Byte) (g : Group) : (sendRequest a g s).len = s.len := rfl
@[simp] theorem sendRequest_cv (a : Byte) (g : Group) : (sendRequest a g s).cv = s.cv := rfl
@[simp] theorem sendRequest_poff (a : Byte) (g : Group) : (sendRequest a g s).poff = s.poff := rfl
@[simp] theorem sendRequest_pv (a : Byte) (g : Group) : (sendRequest a g s).pv = s.pv := rfl
@[simp] theorem sendRequest_pg (a : Byte) (g : Group) : (sendRequest a g s).pg = s.pg := rfl
@[simp] theorem sendRequest_cidx (a : Byte) (g : Group) : (sendRequest a g s).cidx = s.cidx := rfl
@[simp] theorem sendRequest_errs (a : Byte) (g : Group) : (sendRequest a g s).errs = s.errs := rfl
@[simp] theorem sendRequest_cmd (a : Byte) (g : Group) : (sendRequest a g s).cmd = s.cmd := rfl
@[simp] theorem sendRequest_rx (a : Byte) (g : Group) : (sendRequest a g s).rx = s.rx := rfl
@[simp] theorem sendRequest_tx (a : Byte) (g : Group) : (sendRequest a g s).tx = s.tx ++ (requestFrame s.cfg a g).toList := rfl
@[simp] theorem sendRequest_fld (a : Byte) (g : Group) : (sendRequest a g s).fld = s.fld := rfl
@[simp] theorem sendRequest_cpl (a : Byte) (g : Group) : (sendRequest a g s).cpl = s.cpl := rfl
@[simp] theorem sendRequest_rst (a : Byte) (g : Group) : (sendRequest a g s).rst = s.rst := rfl
@[simp] theorem sendRequest_run (a : Byte) (g : Group) : (sendRequest a g s).run = s.run := rfl

@[simp] theorem beginCapture_cfg : (beginCapture s).cfg = s.cfg := rfl
@[simp] theorem beginCapture_crc : (beginCapture s).crc = s.crc := rfl
@[simp] theorem beginCapture_req : (beginCapture s).req = s.req := rfl
@[simp] theorem beginCapture_mem : (beginCapture s).mem = s.mem := rfl
@[simp] theorem beginCapture_len : (beginCapture s).len = 0#16 := rfl
@[simp] theorem beginCapture_cv : (beginCapture s).cv = false := rfl
@[simp] theorem beginCapture_poff : (beginCapture s).poff = s.poff := rfl
@[simp] theorem beginCapture_pv : (beginCapture s).pv = false := rfl
@[simp] theorem beginCapture_pg : (beginCapture s).pg = s.pg := rfl
@[simp] theorem beginCapture_cidx : (beginCapture s).cidx = s.cidx := rfl
@[simp] theorem beginCapture_errs : (beginCapture s).errs = s.errs := rfl
@[simp] theorem beginCapture_cmd : (beginCapture s).cmd = s.cmd := rfl
@[simp] theorem beginCapture_rx : (beginCapture s).rx = s.rx := rfl
@[simp] theorem beginCapture_tx : (beginCapture s).tx = s.tx := rfl
@[simp] theorem beginCapture_fld : (beginCapture s).fld = s.fld := rfl
@[simp] theorem beginCapture_cpl : (beginCapture s).cpl = s.cpl := rfl
@[simp] theorem beginCapture_rst : (beginCapture s).rst = s.rst := rfl
@[simp] theorem beginCapture_run : (beginCapture s).run = .capturing := rfl

@[simp] theorem withCaptured_cfg (c : Captured) : (withCaptured c s).cfg = s.cfg := rfl
@[simp] theorem withCaptured_crc (c : Captured) : (withCaptured c s).crc = s.crc := rfl
@[simp] theorem withCaptured_req (c : Captured) : (withCaptured c s).req = s.req := rfl
@[simp] theorem withCaptured_mem (c : Captured) : (withCaptured c s).mem = c.mem := rfl
@[simp] theorem withCaptured_len (c : Captured) : (withCaptured c s).len = c.len := rfl
@[simp] theorem withCaptured_cv (c : Captured) : (withCaptured c s).cv = s.cv := rfl
@[simp] theorem withCaptured_poff (c : Captured) : (withCaptured c s).poff = s.poff := rfl
@[simp] theorem withCaptured_pv (c : Captured) : (withCaptured c s).pv = s.pv := rfl
@[simp] theorem withCaptured_pg (c : Captured) : (withCaptured c s).pg = s.pg := rfl
@[simp] theorem withCaptured_cidx (c : Captured) : (withCaptured c s).cidx = s.cidx := rfl
@[simp] theorem withCaptured_errs (c : Captured) : (withCaptured c s).errs = s.errs := rfl
@[simp] theorem withCaptured_cmd (c : Captured) : (withCaptured c s).cmd = s.cmd := rfl
@[simp] theorem withCaptured_rx (c : Captured) : (withCaptured c s).rx = c.rx := rfl
@[simp] theorem withCaptured_tx (c : Captured) : (withCaptured c s).tx = s.tx := rfl
@[simp] theorem withCaptured_fld (c : Captured) : (withCaptured c s).fld = s.fld := rfl
@[simp] theorem withCaptured_cpl (c : Captured) : (withCaptured c s).cpl = s.cpl := rfl
@[simp] theorem withCaptured_rst (c : Captured) : (withCaptured c s).rst = s.rst := rfl
@[simp] theorem withCaptured_run (c : Captured) : (withCaptured c s).run = s.run := rfl

@[simp] theorem located_cfg (g : BitVec 2) (p : Nat) : (located g p s).cfg = s.cfg := rfl
@[simp] theorem located_crc (g : BitVec 2) (p : Nat) : (located g p s).crc = s.crc := rfl
@[simp] theorem located_req (g : BitVec 2) (p : Nat) : (located g p s).req = s.req := rfl
@[simp] theorem located_mem (g : BitVec 2) (p : Nat) : (located g p s).mem = s.mem := rfl
@[simp] theorem located_len (g : BitVec 2) (p : Nat) : (located g p s).len = s.len := rfl
@[simp] theorem located_cv (g : BitVec 2) (p : Nat) : (located g p s).cv = s.cv := rfl
@[simp] theorem located_poff (g : BitVec 2) (p : Nat) : (located g p s).poff = BitVec.ofNat 16 (p + frameOverhead) := rfl
@[simp] theorem located_pv (g : BitVec 2) (p : Nat) : (located g p s).pv = true := rfl
@[simp] theorem located_pg (g : BitVec 2) (p : Nat) : (located g p s).pg = g := rfl
@[simp] theorem located_cidx (g : BitVec 2) (p : Nat) : (located g p s).cidx = s.cidx := rfl
@[simp] theorem located_errs (g : BitVec 2) (p : Nat) : (located g p s).errs = s.errs := rfl
@[simp] theorem located_cmd (g : BitVec 2) (p : Nat) : (located g p s).cmd = s.cmd := rfl
@[simp] theorem located_rx (g : BitVec 2) (p : Nat) : (located g p s).rx = s.rx := rfl
@[simp] theorem located_tx (g : BitVec 2) (p : Nat) : (located g p s).tx = s.tx := rfl
@[simp] theorem located_fld (g : BitVec 2) (p : Nat) : (located g p s).fld = s.fld := rfl
@[simp] theorem located_cpl (g : BitVec 2) (p : Nat) : (located g p s).cpl = s.cpl := rfl
@[simp] theorem located_rst (g : BitVec 2) (p : Nat) : (located g p s).rst = s.rst := rfl
@[simp] theorem located_run (g : BitVec 2) (p : Nat) : (located g p s).run = s.run := rfl

@[simp] theorem skipRow_cfg : (skipRow s).cfg = s.cfg := rfl
@[simp] theorem skipRow_crc : (skipRow s).crc = s.crc := rfl
@[simp] theorem skipRow_req : (skipRow s).req = s.req := rfl
@[simp] theorem skipRow_mem : (skipRow s).mem = s.mem := rfl
@[simp] theorem skipRow_len : (skipRow s).len = s.len := rfl
@[simp] theorem skipRow_cv : (skipRow s).cv = s.cv := rfl
@[simp] theorem skipRow_poff : (skipRow s).poff = s.poff := rfl
@[simp] theorem skipRow_pv : (skipRow s).pv = s.pv := rfl
@[simp] theorem skipRow_pg : (skipRow s).pg = s.pg := rfl
@[simp] theorem skipRow_cidx : (skipRow s).cidx = s.cidx + 1#16 := rfl
@[simp] theorem skipRow_errs : (skipRow s).errs = s.errs := rfl
@[simp] theorem skipRow_cmd : (skipRow s).cmd = s.cmd := rfl
@[simp] theorem skipRow_rx : (skipRow s).rx = s.rx := rfl
@[simp] theorem skipRow_tx : (skipRow s).tx = s.tx := rfl
@[simp] theorem skipRow_fld : (skipRow s).fld = s.fld := rfl
@[simp] theorem skipRow_cpl : (skipRow s).cpl = s.cpl := rfl
@[simp] theorem skipRow_rst : (skipRow s).rst = s.rst := rfl
@[simp] theorem skipRow_run : (skipRow s).run = s.run := rfl

@[simp] theorem emitRow_cfg (g : Group) (n : Half) (r : FieldRecord) : (emitRow g n r s).cfg = s.cfg := rfl
@[simp] theorem emitRow_crc (g : Group) (n : Half) (r : FieldRecord) : (emitRow g n r s).crc = s.crc := rfl
@[simp] theorem emitRow_req (g : Group) (n : Half) (r : FieldRecord) : (emitRow g n r s).req = s.req := rfl
@[simp] theorem emitRow_mem (g : Group) (n : Half) (r : FieldRecord) : (emitRow g n r s).mem = s.mem := rfl
@[simp] theorem emitRow_len (g : Group) (n : Half) (r : FieldRecord) : (emitRow g n r s).len = s.len := rfl
@[simp] theorem emitRow_cv (g : Group) (n : Half) (r : FieldRecord) : (emitRow g n r s).cv = s.cv := rfl
@[simp] theorem emitRow_poff (g : Group) (n : Half) (r : FieldRecord) : (emitRow g n r s).poff = s.poff := rfl
@[simp] theorem emitRow_pv (g : Group) (n : Half) (r : FieldRecord) : (emitRow g n r s).pv = s.pv := rfl
@[simp] theorem emitRow_pg (g : Group) (n : Half) (r : FieldRecord) : (emitRow g n r s).pg = s.pg := rfl
@[simp] theorem emitRow_cidx (g : Group) (n : Half) (r : FieldRecord) : (emitRow g n r s).cidx = s.cidx + 1#16 := rfl
@[simp] theorem emitRow_errs (g : Group) (n : Half) (r : FieldRecord) : (emitRow g n r s).errs = s.errs := rfl
@[simp] theorem emitRow_cmd (g : Group) (n : Half) (r : FieldRecord) : (emitRow g n r s).cmd = s.cmd := rfl
@[simp] theorem emitRow_rx (g : Group) (n : Half) (r : FieldRecord) : (emitRow g n r s).rx = s.rx := rfl
@[simp] theorem emitRow_tx (g : Group) (n : Half) (r : FieldRecord) : (emitRow g n r s).tx = s.tx := rfl
@[simp] theorem emitRow_fld (g : Group) (n : Half) (r : FieldRecord) : (emitRow g n r s).fld = s.fld ++ [r] := rfl
@[simp] theorem emitRow_cpl (g : Group) (n : Half) (r : FieldRecord) : (emitRow g n r s).cpl = s.cpl := rfl
@[simp] theorem emitRow_rst (g : Group) (n : Half) (r : FieldRecord) : (emitRow g n r s).rst = s.rst := rfl
@[simp] theorem emitRow_run (g : Group) (n : Half) (r : FieldRecord) : (emitRow g n r s).run = .decoding g (n + 1#16) := rfl

@[simp] theorem issue_cfg (ws : List Word) : (issue ws s).cfg = s.cfg := rfl
@[simp] theorem issue_crc (ws : List Word) : (issue ws s).crc = s.crc := rfl
@[simp] theorem issue_req (ws : List Word) : (issue ws s).req = s.req := rfl
@[simp] theorem issue_mem (ws : List Word) : (issue ws s).mem = s.mem := rfl
@[simp] theorem issue_len (ws : List Word) : (issue ws s).len = s.len := rfl
@[simp] theorem issue_cv (ws : List Word) : (issue ws s).cv = s.cv := rfl
@[simp] theorem issue_poff (ws : List Word) : (issue ws s).poff = s.poff := rfl
@[simp] theorem issue_pv (ws : List Word) : (issue ws s).pv = s.pv := rfl
@[simp] theorem issue_pg (ws : List Word) : (issue ws s).pg = s.pg := rfl
@[simp] theorem issue_cidx (ws : List Word) : (issue ws s).cidx = s.cidx := rfl
@[simp] theorem issue_errs (ws : List Word) : (issue ws s).errs = s.errs := rfl
@[simp] theorem issue_cmd (ws : List Word) : (issue ws s).cmd = s.cmd ++ ws := rfl
@[simp] theorem issue_rx (ws : List Word) : (issue ws s).rx = s.rx := rfl
@[simp] theorem issue_tx (ws : List Word) : (issue ws s).tx = s.tx := rfl
@[simp] theorem issue_fld (ws : List Word) : (issue ws s).fld = s.fld := rfl
@[simp] theorem issue_cpl (ws : List Word) : (issue ws s).cpl = s.cpl := rfl
@[simp] theorem issue_rst (ws : List Word) : (issue ws s).rst = s.rst := rfl
@[simp] theorem issue_run (ws : List Word) : (issue ws s).run = s.run := rfl

@[simp] theorem deliver_cfg (ts : List Token) : (deliver ts s).cfg = s.cfg := rfl
@[simp] theorem deliver_crc (ts : List Token) : (deliver ts s).crc = s.crc := rfl
@[simp] theorem deliver_req (ts : List Token) : (deliver ts s).req = s.req := rfl
@[simp] theorem deliver_mem (ts : List Token) : (deliver ts s).mem = s.mem := rfl
@[simp] theorem deliver_len (ts : List Token) : (deliver ts s).len = s.len := rfl
@[simp] theorem deliver_cv (ts : List Token) : (deliver ts s).cv = s.cv := rfl
@[simp] theorem deliver_poff (ts : List Token) : (deliver ts s).poff = s.poff := rfl
@[simp] theorem deliver_pv (ts : List Token) : (deliver ts s).pv = s.pv := rfl
@[simp] theorem deliver_pg (ts : List Token) : (deliver ts s).pg = s.pg := rfl
@[simp] theorem deliver_cidx (ts : List Token) : (deliver ts s).cidx = s.cidx := rfl
@[simp] theorem deliver_errs (ts : List Token) : (deliver ts s).errs = s.errs := rfl
@[simp] theorem deliver_cmd (ts : List Token) : (deliver ts s).cmd = s.cmd := rfl
@[simp] theorem deliver_rx (ts : List Token) : (deliver ts s).rx = s.rx ++ ts := rfl
@[simp] theorem deliver_tx (ts : List Token) : (deliver ts s).tx = s.tx := rfl
@[simp] theorem deliver_fld (ts : List Token) : (deliver ts s).fld = s.fld := rfl
@[simp] theorem deliver_cpl (ts : List Token) : (deliver ts s).cpl = s.cpl := rfl
@[simp] theorem deliver_rst (ts : List Token) : (deliver ts s).rst = s.rst := rfl
@[simp] theorem deliver_run (ts : List Token) : (deliver ts s).run = s.run := rfl

@[simp] theorem assertReset_cfg : (assertReset s).cfg = s.cfg := rfl
@[simp] theorem assertReset_crc : (assertReset s).crc = s.crc := rfl
@[simp] theorem assertReset_req : (assertReset s).req = s.req := rfl
@[simp] theorem assertReset_mem : (assertReset s).mem = s.mem := rfl
@[simp] theorem assertReset_len : (assertReset s).len = s.len := rfl
@[simp] theorem assertReset_cv : (assertReset s).cv = s.cv := rfl
@[simp] theorem assertReset_poff : (assertReset s).poff = s.poff := rfl
@[simp] theorem assertReset_pv : (assertReset s).pv = s.pv := rfl
@[simp] theorem assertReset_pg : (assertReset s).pg = s.pg := rfl
@[simp] theorem assertReset_cidx : (assertReset s).cidx = s.cidx := rfl
@[simp] theorem assertReset_errs : (assertReset s).errs = s.errs := rfl
@[simp] theorem assertReset_cmd : (assertReset s).cmd = s.cmd := rfl
@[simp] theorem assertReset_rx : (assertReset s).rx = s.rx := rfl
@[simp] theorem assertReset_tx : (assertReset s).tx = s.tx := rfl
@[simp] theorem assertReset_fld : (assertReset s).fld = s.fld := rfl
@[simp] theorem assertReset_cpl : (assertReset s).cpl = s.cpl := rfl
@[simp] theorem assertReset_rst : (assertReset s).rst = true := rfl
@[simp] theorem assertReset_run : (assertReset s).run = s.run := rfl

/-- Releasing an asserted reset leaves the reset state (R280). -/
theorem releaseReset_asserted (h : s.rst = true) : releaseReset s = { resetUnit s with rst := false } := if_pos h

/-- Releasing a reset that is not asserted changes nothing. -/
theorem releaseReset_released (h : s.rst = false) : releaseReset s = s := by rw [releaseReset, h]; rfl

@[simp] theorem releaseReset_cfg : (releaseReset s).cfg = s.cfg := by unfold releaseReset; split <;> rfl
@[simp] theorem releaseReset_cmd : (releaseReset s).cmd = s.cmd := by unfold releaseReset; split <;> rfl
@[simp] theorem releaseReset_rx : (releaseReset s).rx = s.rx := by unfold releaseReset; split <;> rfl
@[simp] theorem releaseReset_tx : (releaseReset s).tx = s.tx := by unfold releaseReset; split <;> rfl
@[simp] theorem releaseReset_fld : (releaseReset s).fld = s.fld := by unfold releaseReset; split <;> rfl
@[simp] theorem releaseReset_cpl : (releaseReset s).cpl = s.cpl := by unfold releaseReset; split <;> rfl
@[simp] theorem releaseReset_rst : (releaseReset s).rst = false := by
  unfold releaseReset; split
  · rfl
  · exact eq_false_of_ne_true ‹_›

end Sys2Proof.Machine
end

