-- ==== Sys2Proof/Laws/Capture.lean ====
section
/-! SUPPORT. What the capture loop of CAP can do (spec 42_capture.md R167, R168). -/

namespace Sys2Proof.Machine

theorem toNat_succ (len : Half) (h : len.toNat < 65535) : (len + 1#16).toNat = len.toNat + 1 := by
  rw [BitVec.toNat_add]; simp; omega

theorem captureTokens_nil (cap : Nat) (mem : Memory) (len : Half) :
    captureTokens cap [] mem len = { mem := mem, len := len, rx := [], ended := decide (cap ≤ len.toNat) } := rfl

theorem captureTokens_quiet (cap : Nat) (ts : List Token) (mem : Memory) (len : Half) (h : len.toNat < cap) :
    captureTokens cap (.quiet :: ts) mem len = { mem := mem, len := len, rx := ts, ended := true } := by
  simp [captureTokens, h]

theorem captureTokens_byte (cap : Nat) (b : Byte) (ts : List Token) (mem : Memory) (len : Half) (h : len.toNat < cap) :
    captureTokens cap (.byte b :: ts) mem len =
      captureTokens cap ts (Memory.write mem len.toNat b) (len + 1#16) := by
  simp [captureTokens, h]

/-- A full buffer ends the loop without taking a token (R168). -/
theorem captureTokens_full (cap : Nat) (ts : List Token) (mem : Memory) (len : Half) (h : cap ≤ len.toNat) :
    captureTokens cap ts mem len = { mem := mem, len := len, rx := ts, ended := true } := by
  cases ts <;> simp [captureTokens, h]

/-- Bytes that fit are stored at consecutive indices, in order. -/
theorem captureTokens_span (cap : Nat) (bs : List Byte) (rest : List Token) (mem : Memory) (len : Half)
    (h : len.toNat + bs.length ≤ cap) (hw : len.toNat + bs.length ≤ 65535) :
    ∃ m, (∀ a, Memory.read? m a =
        if len.toNat ≤ a ∧ a < len.toNat + bs.length then bs[a - len.toNat]? else Memory.read? mem a) ∧
      captureTokens cap (bs.map .byte ++ rest) mem len =
        captureTokens cap rest m (len + BitVec.ofNat 16 bs.length) := by
  induction bs generalizing mem len with
  | nil =>
    refine ⟨mem, fun a => ?_, by simp⟩
    rw [if_neg (by simp only [List.length_nil]; omega)]
  | cons b bs ih =>
    rw [List.length_cons] at h hw
    have hs := toNat_succ len (by omega)
    obtain ⟨m, hm, hc⟩ := ih (Memory.write mem len.toNat b) (len + 1#16) (by omega) (by omega)
    refine ⟨m, fun a => ?_, ?_⟩
    · rw [hm, hs]
      by_cases h1 : len.toNat + 1 ≤ a ∧ a < len.toNat + 1 + bs.length
      · rw [if_pos h1, if_pos (by simp only [List.length_cons]; omega)]
        rw [show a - len.toNat = (a - (len.toNat + 1)) + 1 by omega, List.getElem?_cons_succ]
      · rw [if_neg h1, read?_write]
        by_cases h2 : a = len.toNat
        · subst h2; rw [if_pos rfl, if_pos (by simp)]; simp
        · rw [if_neg h2, if_neg (by simp only [List.length_cons]; omega)]
    · rw [List.map_cons, List.cons_append, captureTokens_byte _ _ _ _ _ (by omega), hc, BitVec.add_assoc]
      congr 2
      apply BitVec.eq_of_toNat_eq; simp; omega

/-- The loop takes a prefix of the tokens. -/
theorem captureTokens_suffix (cap : Nat) (ts : List Token) (mem : Memory) (len : Half) :
    (captureTokens cap ts mem len).rx <:+ ts := by
  induction ts generalizing mem len with
  | nil => exact List.suffix_refl _
  | cons t ts ih =>
    simp only [captureTokens]
    split
    · split
      · exact List.suffix_cons _ _
      · exact (ih _ _).trans (List.suffix_cons _ _)
    · exact List.suffix_refl _

/-- A loop that has not ended has taken every token and has room left. -/
theorem captureTokens_waiting (cap : Nat) (ts : List Token) (mem : Memory) (len : Half)
    (h : (captureTokens cap ts mem len).ended = false) :
    (captureTokens cap ts mem len).rx = [] ∧ (captureTokens cap ts mem len).len.toNat < cap := by
  induction ts generalizing mem len with
  | nil => simpa [captureTokens] using h
  | cons t ts ih =>
    simp only [captureTokens] at h ⊢
    split at h
    · split at h
      · cases h
      · simp only [if_pos ‹len.toNat < cap›]; exact ih _ _ h
    · cases h

/-- A loop that has not ended has stored every token it took, one byte each. -/
theorem captureTokens_waiting_len (cap : Nat) (hcap : cap ≤ 65535) (ts : List Token) (mem : Memory) (len : Half)
    (h : (captureTokens cap ts mem len).ended = false) :
    (captureTokens cap ts mem len).len.toNat = len.toNat + ts.length := by
  induction ts generalizing mem len with
  | nil => rfl
  | cons t ts ih =>
    simp only [captureTokens] at h ⊢
    split at h
    · next hlt =>
      split at h
      · cases h
      · simp only [if_pos hlt]
        rw [ih _ _ h, toNat_succ len (by omega), List.length_cons]; omega
    · cases h

/-- With more tokens at the end of RX: a loop that had ended leaves them, one that had not goes on with them (R166). -/
theorem captureTokens_append (cap : Nat) (ts us : List Token) (mem : Memory) (len : Half) :
    captureTokens cap (ts ++ us) mem len =
      if (captureTokens cap ts mem len).ended then
        { captureTokens cap ts mem len with rx := (captureTokens cap ts mem len).rx ++ us }
      else captureTokens cap us (captureTokens cap ts mem len).mem (captureTokens cap ts mem len).len := by
  induction ts generalizing mem len with
  | nil =>
    simp only [List.nil_append, captureTokens_nil, decide_eq_true_eq]
    split
    · next h => rw [captureTokens_full _ _ _ _ h]; simp [h]
    · rfl
  | cons t ts ih =>
    rw [List.cons_append]
    by_cases h : len.toNat < cap
    · cases t with
      | quiet => simp [captureTokens_quiet _ _ _ _ h]
      | byte b => rw [captureTokens_byte _ _ _ _ _ h, captureTokens_byte _ _ _ _ _ h, ih]
    · rw [captureTokens_full _ _ _ _ (Nat.le_of_not_lt h), captureTokens_full _ _ _ _ (Nat.le_of_not_lt h)]
      simp

/-- What the loop keeps: the canonical form, cells inside the capacity, a value for every captured index, and `len`
within the capacity. -/
theorem captureTokens_keeps (cap : Nat) (hcap : cap ≤ 65535) (ts : List Token) (mem : Memory) (len : Half)
    (hlen : len.toNat ≤ cap) (hwf : Memory.wf mem) (hin : ∀ c ∈ mem, c.1 < cap)
    (hread : ∀ a, a < len.toNat → (Memory.read? mem a).isSome = true) :
    (captureTokens cap ts mem len).len.toNat ≤ cap ∧ Memory.wf (captureTokens cap ts mem len).mem ∧
      (∀ c ∈ (captureTokens cap ts mem len).mem, c.1 < cap) ∧
      ∀ a, a < (captureTokens cap ts mem len).len.toNat →
        (Memory.read? (captureTokens cap ts mem len).mem a).isSome = true := by
  induction ts generalizing mem len with
  | nil => exact ⟨hlen, hwf, hin, hread⟩
  | cons t ts ih =>
    simp only [captureTokens]
    split
    · next hlt =>
      split
      · exact ⟨hlen, hwf, hin, hread⟩
      · have hs := toNat_succ len (by omega)
        refine ih _ _ (by omega) (write_wf _ _ _ hwf) (fun c hc => ?_) (fun a ha => ?_)
        · rcases mem_write _ _ _ _ hc with rfl | hc
          · exact hlt
          · exact hin c hc
        · rw [read?_write]
          split
          · rfl
          · exact hread a (by omega)
    · exact ⟨hlen, hwf, hin, hread⟩

/-- The loop stores nothing at or above the capacity. -/
theorem captureTokens_above (cap : Nat) (ts : List Token) (mem : Memory) (len : Half) (a : Nat) (h : cap ≤ a) :
    Memory.read? (captureTokens cap ts mem len).mem a = Memory.read? mem a := by
  induction ts generalizing mem len with
  | nil => rfl
  | cons t ts ih =>
    simp only [captureTokens]
    split
    · split
      · rfl
      · rw [ih, read?_write_other _ _ _ _ (by omega)]
    · rfl

/-- The loop looks at no byte of the buffer: from buffers that agree below `len` it ends alike, with buffers that agree
below the new `len`. -/
theorem captureTokens_congr (cap : Nat) (ts : List Token) (mem mem' : Memory) (len : Half)
    (h : ∀ a, a < len.toNat → Memory.read? mem' a = Memory.read? mem a) :
    captureTokens cap ts mem' len =
        { captureTokens cap ts mem len with mem := (captureTokens cap ts mem' len).mem } ∧
      ∀ a, a < (captureTokens cap ts mem len).len.toNat →
        Memory.read? (captureTokens cap ts mem' len).mem a = Memory.read? (captureTokens cap ts mem len).mem a := by
  induction ts generalizing mem mem' len with
  | nil => exact ⟨rfl, h⟩
  | cons t ts ih =>
    simp only [captureTokens]
    split
    · split
      · exact ⟨rfl, h⟩
      · refine ih _ _ _ fun a ha => ?_
        rw [read?_write, read?_write]
        split
        · rfl
        · refine h a ?_
          rw [BitVec.toNat_add] at ha
          have := Nat.mod_le (len.toNat + 1) (2 ^ 16)
          simp only [BitVec.toNat_ofNat] at ha
          omega
    · exact ⟨rfl, h⟩

/-- The three ends of a step of a running CAP (R166, R167, R169). -/
theorem runCapture_cases (s t : State) (h : runCapture s = .next t) :
    let c := captureTokens s.cfg.bufCap s.rx s.mem s.len
    (c.ended = true ∧ c.len.toNat < 6 ∧ t = raise .shortResponse c.len (withCaptured c s)) ∨
    (c.ended = true ∧ 6 ≤ c.len.toNat ∧ t = complete c.len { withCaptured c s with cv := true }) ∨
    (c.ended = false ∧ t = { withCaptured c s with run := .capturing }) := by
  intro c
  unfold runCapture at h
  change (if c.ended = true then _ else _) = _ at h
  split at h
  · next he =>
    split at h
    · exact .inl ⟨he, ‹_›, by injection h with h; exact h.symm⟩
    · exact .inr (.inl ⟨he, Nat.le_of_not_lt ‹_›, by injection h with h; exact h.symm⟩)
  · next he => exact .inr (.inr ⟨eq_false_of_ne_true he, by injection h with h; exact h.symm⟩)

/-- A step of a running CAP always answers. -/
theorem runCapture_next (s : State) : ∃ t, runCapture s = .next t := by
  unfold runCapture
  dsimp only
  split
  · split
    · exact ⟨_, rfl⟩
    · exact ⟨_, rfl⟩
  · exact ⟨_, rfl⟩

end Sys2Proof.Machine
end

