-- ==== Sys2Proof/Laws/Crc.lean ====
section
/-! SUPPORT. The CRC register over spans, and the linearity of the bit-serial engine. -/

namespace Sys2Proof.Machine

@[simp] theorem crcFeed_nil (r : Half) : crcFeed r [] = r := rfl

@[simp] theorem crcFeed_cons (r : Half) (b : Byte) (bs : List Byte) : crcFeed r (b :: bs) = crcFeed (crcStep r b) bs := rfl

/-- Streaming composes (R137). -/
theorem crcFeed_append (r : Half) (bs cs : List Byte) : crcFeed r (bs ++ cs) = crcFeed (crcFeed r bs) cs :=
  List.foldl_append

theorem crct_zero : crct 0#8 = 0#16 := rfl

/-- One conditional shift step is linear over exclusive-or. -/
theorem crcShift_xor (x y : Half) : crcShift (x ^^^ y) = crcShift x ^^^ crcShift y := by
  unfold crcShift
  rw [BitVec.getLsbD_xor, BitVec.ushiftRight_xor_distrib]
  cases x.getLsbD 0 <;> cases y.getLsbD 0 <;>
    simp only [Bool.xor_false, Bool.xor_true, Bool.not_false, Bool.not_true, if_true, if_false, Bool.false_eq_true]
  · rw [BitVec.xor_assoc]
  · rw [BitVec.xor_assoc, BitVec.xor_assoc, BitVec.xor_comm (y >>> 1)]
  · apply BitVec.eq_of_getLsbD_eq; intro i hi
    simp only [BitVec.getLsbD_xor]
    cases (x >>> 1).getLsbD i <;> cases (y >>> 1).getLsbD i <;> cases (0xA001#16).getLsbD i <;> rfl

/-- Several conditional shift steps are linear over exclusive-or. -/
theorem crcShifts_xor (n : Nat) (x y : Half) : crcShifts n (x ^^^ y) = crcShifts n x ^^^ crcShifts n y := by
  induction n generalizing x y with
  | zero => rfl
  | succ n ih => rw [crcShifts, crcShifts, crcShifts, crcShift_xor, ih]

end Sys2Proof.Machine
end

