-- ==== Sys2Proof/Laws/Decode.lean ====
section
/-! SUPPORT. The fields of encoded words, the tags and their codes, and what a successful decoding says. -/

namespace Sys2Proof

/-- The bits of a command word, field by field (R91). -/
theorem getLsbD_commandWord (opc a : Byte) (g : BitVec 2) (i : Nat) :
    (commandWord opc a g).getLsbD i =
      if i < 8 then opc.getLsbD i else if i - 8 < 8 then a.getLsbD (i - 8)
      else if i - 8 - 8 < 2 then g.getLsbD (i - 8 - 8) else false := by
  refine (BitVec.getLsbD_append (x := 0#14 ++ g ++ a) (y := opc)).trans ?_
  refine ite_congr rfl (fun _ => rfl) fun _ => ?_
  refine (BitVec.getLsbD_append (x := 0#14 ++ g) (y := a)).trans ?_
  refine ite_congr rfl (fun _ => rfl) fun _ => ?_
  refine (BitVec.getLsbD_append (x := 0#14) (y := g)).trans ?_
  rw [BitVec.getLsbD_zero]

@[simp] theorem opcOf_commandWord (opc a : Byte) (g : BitVec 2) : opcOf (commandWord opc a g) = opc := by
  apply BitVec.eq_of_getLsbD_eq; intro i hi
  rw [opcOf, BitVec.getLsbD_extractLsb', getLsbD_commandWord]; simp [hi]

@[simp] theorem aOf_commandWord (opc a : Byte) (g : BitVec 2) : aOf (commandWord opc a g) = a := by
  apply BitVec.eq_of_getLsbD_eq; intro i hi
  rw [aOf, BitVec.getLsbD_extractLsb', getLsbD_commandWord]; simp [hi]

@[simp] theorem gOf_commandWord (opc a : Byte) (g : BitVec 2) : gOf (commandWord opc a g) = g := by
  apply BitVec.eq_of_getLsbD_eq; intro i hi
  rw [gOf, BitVec.getLsbD_extractLsb', getLsbD_commandWord, if_neg (by omega), if_neg (by omega), if_pos (by omega),
    show 16 + i - 8 - 8 = i by omega]
  simp [hi]

@[simp] theorem rsvOf_commandWord (opc a : Byte) (g : BitVec 2) : rsvOf (commandWord opc a g) = 0#14 := by
  apply BitVec.eq_of_getLsbD_eq; intro i hi
  rw [rsvOf, BitVec.getLsbD_extractLsb', getLsbD_commandWord, if_neg (by omega), if_neg (by omega), if_neg (by omega)]
  simp

/-- A command word with `rsv` zero is made of its fields. -/
theorem commandWord_fields (w : Word) (h : rsvOf w = 0#14) : commandWord (opcOf w) (aOf w) (gOf w) = w := by
  apply BitVec.eq_of_getLsbD_eq; intro i hi
  rw [getLsbD_commandWord, opcOf, aOf, gOf, BitVec.getLsbD_extractLsb', BitVec.getLsbD_extractLsb',
    BitVec.getLsbD_extractLsb']
  split
  · simp [*]
  · split
    · simp [*, show 8 + (i - 8) = i by omega]
    · split
      · simp [*, show 16 + (i - 8 - 8) = i by omega]
      · have := congrArg (·.getLsbD (i - 18)) h
        simp only [rsvOf, BitVec.getLsbD_extractLsb', BitVec.getLsbD_zero, show 18 + (i - 18) = i by omega,
          show i - 18 < 14 by omega, decide_true, Bool.true_and] at this
        exact this.symm

/-- The bits of a descriptor word, field by field (R98). -/
theorem getLsbD_descriptorWord (t : TypeTag) (addr : Half) (i : Nat) :
    (descriptorWord t addr).getLsbD i =
      if i < 16 then addr.getLsbD i else if i - 16 < 4 then t.code.getLsbD (i - 16) else false := by
  refine (BitVec.getLsbD_append (x := 0#12 ++ t.code) (y := addr)).trans ?_
  refine ite_congr rfl (fun _ => rfl) fun _ => ?_
  refine (BitVec.getLsbD_append (x := 0#12) (y := t.code)).trans ?_
  rw [BitVec.getLsbD_zero]

@[simp] theorem rowAddrOf_descriptorWord (t : TypeTag) (addr : Half) : rowAddrOf (descriptorWord t addr) = addr := by
  apply BitVec.eq_of_getLsbD_eq; intro i hi
  rw [rowAddrOf, BitVec.getLsbD_extractLsb', getLsbD_descriptorWord]; simp [hi]

@[simp] theorem rowTagOf_descriptorWord (t : TypeTag) (addr : Half) : rowTagOf (descriptorWord t addr) = t.code := by
  apply BitVec.eq_of_getLsbD_eq; intro i hi
  rw [rowTagOf, BitVec.getLsbD_extractLsb', getLsbD_descriptorWord]; simp [hi]

@[simp] theorem rowRsvOf_descriptorWord (t : TypeTag) (addr : Half) : rowRsvOf (descriptorWord t addr) = 0#12 := by
  apply BitVec.eq_of_getLsbD_eq; intro i hi
  rw [rowRsvOf, BitVec.getLsbD_extractLsb', getLsbD_descriptorWord, if_neg (by omega), if_neg (by omega)]
  simp

/-- A descriptor word with `rsv` zero and a type's tag is made of its fields. -/
theorem descriptorWord_fields (d : Word) (t : TypeTag) (h : rowRsvOf d = 0#12) (ht : rowTagOf d = t.code) :
    descriptorWord t (rowAddrOf d) = d := by
  apply BitVec.eq_of_getLsbD_eq; intro i hi
  rw [getLsbD_descriptorWord, ← ht, rowAddrOf, rowTagOf, BitVec.getLsbD_extractLsb', BitVec.getLsbD_extractLsb']
  split
  · simp [*]
  · split
    · simp [*, show 16 + (i - 16) = i by omega]
    · have := congrArg (·.getLsbD (i - 20)) h
      simp only [rowRsvOf, BitVec.getLsbD_extractLsb', BitVec.getLsbD_zero, show 20 + (i - 20) = i by omega,
        show i - 20 < 12 by omega, decide_true, Bool.true_and] at this
      exact this.symm

@[simp] theorem tagOfCode_code (t : TypeTag) : tagOfCode t.code = some t := by cases t <;> rfl

/-- A tag number that names a type is the type's code. -/
theorem tagOfCode_some (c : BitVec 4) (t : TypeTag) (h : tagOfCode c = some t) : c = t.code := by
  revert c t; decide

/-- The tag numbers 0 to 8 name a type (R100). -/
theorem tagOfCode_isSome (c : BitVec 4) (h : c.toNat ≤ 8) : (tagOfCode c).isSome = true := by
  revert c; decide

@[simp] theorem row_ofRow (t : TypeTag) (addr : Half) : (Instr.ofRow t addr).row = some (t, addr) := by cases t <;> rfl

@[simp] theorem isCommand_ofRow (t : TypeTag) (addr : Half) : (Instr.ofRow t addr).isCommand = false := by
  cases t <;> rfl

@[simp] theorem encode_ofRow (t : TypeTag) (addr : Half) : encode (Instr.ofRow t addr) = descriptorWord t addr := by
  cases t <;> rfl

/-- A level-2 instruction is a row. -/
theorem eq_ofRow (i : Instr) (h : i.isCommand = false) : ∃ t addr, i = Instr.ofRow t addr := by
  cases i
  case u8 addr => exact ⟨.u8, addr, rfl⟩
  case i8 addr => exact ⟨.i8, addr, rfl⟩
  case u16 addr => exact ⟨.u16, addr, rfl⟩
  case i16 addr => exact ⟨.i16, addr, rfl⟩
  case u32 addr => exact ⟨.u32, addr, rfl⟩
  case i32 addr => exact ⟨.i32, addr, rfl⟩
  case f32 addr => exact ⟨.f32, addr, rfl⟩
  case text16 addr => exact ⟨.text16, addr, rfl⟩
  case text8 addr => exact ⟨.text8, addr, rfl⟩
  all_goals cases h

/-- What a descriptor word that decodes holds (R98). -/
theorem decodeDescriptor_ok (d : Word) (i : Instr) (h : decodeDescriptor d = .ok i) :
    ∃ t, rowRsvOf d = 0#12 ∧ rowTagOf d = t.code ∧ i = Instr.ofRow t (rowAddrOf d) := by
  unfold decodeDescriptor at h
  split at h
  · cases h
  · next hr =>
    split at h
    · next t ht => exact ⟨t, by simpa using hr, tagOfCode_some _ _ ht, by cases h; rfl⟩
    · cases h

/-- A well-formed descriptor word decodes (R98, R101). -/
theorem decodeDescriptor_of_ok (d : Word) (h : descriptorOk d = true) :
    ∃ t, tagOfCode (rowTagOf d) = some t ∧ decodeDescriptor d = .ok (Instr.ofRow t (rowAddrOf d)) := by
  simp only [descriptorOk, Bool.and_eq_true, decide_eq_true_eq] at h
  obtain ⟨t, ht⟩ := Option.isSome_iff_exists.1 (tagOfCode_isSome (rowTagOf d) h.1)
  refine ⟨t, ht, ?_⟩
  rw [decodeDescriptor, if_neg (by simpa [rowRsvOf] using h.2), ht]

/-- A plain command word that decodes has neither operand. -/
theorem decodePlain_ok (w : Word) (i j : Instr) (h : decodePlain w i = .ok j) : aOf w = 0#8 ∧ gOf w = 0#2 ∧ j = i := by
  unfold decodePlain at h
  split at h
  · cases h
  next ha =>
  split at h
  · cases h
  next hg => cases h; exact ⟨not_not.1 ha, not_not.1 hg, rfl⟩

/-- The forms a command word that decodes can have (R92, R94). -/
theorem decodeCommand_ok (w : Word) (i : Instr) (h : decodeCommand w = .ok i) : rsvOf w = 0#14 ∧
    ((opcOf w = 0x01#8 ∧ aOf w = 0#8 ∧ gOf w = 0#2 ∧ i = .crci) ∨
     (opcOf w = 0x02#8 ∧ gOf w = 0#2 ∧ i = .crcb (aOf w)) ∨
     (opcOf w = 0x03#8 ∧ aOf w = 0#8 ∧ gOf w = 0#2 ∧ i = .crcr) ∨
     (opcOf w = 0x04#8 ∧ aOf w = 0#8 ∧ gOf w = 0#2 ∧ i = .stat) ∨
     (opcOf w = 0x10#8 ∧ i = .req (aOf w) (gOf w)) ∨
     (opcOf w = 0x11#8 ∧ aOf w = 0#8 ∧ gOf w = 0#2 ∧ i = .cap) ∨
     (opcOf w = 0x12#8 ∧ aOf w = 0#8 ∧ i = .loc (gOf w)) ∨
     (opcOf w = 0x13#8 ∧ aOf w = 0#8 ∧ i = .dec (gOf w))) := by
  unfold decodeCommand at h
  split at h
  · cases h
  next hr =>
  refine ⟨by simpa using hr, ?_⟩
  split at h
  · next ho => obtain ⟨ha, hg, rfl⟩ := decodePlain_ok _ _ _ h; simp [ho, ha, hg]
  split at h
  · next ho =>
    split at h
    · cases h
    · next hg => cases h; simp only [ne_eq, not_not] at hg; simp [ho, hg]
  split at h
  · next ho => obtain ⟨ha, hg, rfl⟩ := decodePlain_ok _ _ _ h; simp [ho, ha, hg]
  split at h
  · next ho => obtain ⟨ha, hg, rfl⟩ := decodePlain_ok _ _ _ h; simp [ho, ha, hg]
  split at h
  · next ho => cases h; simp [ho]
  split at h
  · next ho => obtain ⟨ha, hg, rfl⟩ := decodePlain_ok _ _ _ h; simp [ho, ha, hg]
  split at h
  · next ho =>
    split at h
    · cases h
    · next ha => cases h; simp only [ne_eq, not_not] at ha; simp [ho, ha]
  split at h
  · next ho =>
    split at h
    · cases h
    · next ha => cases h; simp only [ne_eq, not_not] at ha; simp [ho, ha]
  · cases h

end Sys2Proof
end

