-- ==== Sys2Proof/Laws/Locator.lean ====
section
/-! SUPPORT. What the scan of LOC can answer (spec 43_locator.md R181 to R184). -/

namespace Sys2Proof.Machine

/-- A position the scan finds is in its range, matches, and no earlier position of the range does. -/
theorem scan_some (s : State) (gid : Half) (k p q : Nat) (h : scan s gid k p = .ok (some q)) :
    p ≤ q ∧ q < p + k ∧ (∃ m, memRead s q 6 = .ok m ∧ frameAt gid m = true) ∧
      ∀ r, p ≤ r → r < q → ∃ m, memRead s r 6 = .ok m ∧ frameAt gid m = false := by
  induction k generalizing p with
  | zero => cases h
  | succ k ih =>
    rw [scan] at h
    split at h
    · cases h
    · next m hm =>
      split at h
      · next hf => cases h; exact ⟨Nat.le_refl _, by omega, ⟨m, hm, hf⟩, fun r _ _ => by omega⟩
      · next hf =>
        obtain ⟨h1, h2, h3, h4⟩ := ih _ h
        refine ⟨by omega, by omega, h3, fun r hr hq => ?_⟩
        rcases Nat.eq_or_lt_of_le hr with rfl | hr
        · exact ⟨m, hm, by simpa using hf⟩
        · exact h4 r hr hq

/-- When the scan finds nothing, every position of its range was read and does not match. -/
theorem scan_none (s : State) (gid : Half) (k p : Nat) (h : scan s gid k p = .ok none) :
    ∀ r, p ≤ r → r < p + k → ∃ m, memRead s r 6 = .ok m ∧ frameAt gid m = false := by
  induction k generalizing p with
  | zero => intro r _ _; omega
  | succ k ih =>
    rw [scan] at h
    split at h
    · cases h
    · next m hm =>
      split at h
      · cases h
      · next hf =>
        intro r hr hk
        rcases Nat.eq_or_lt_of_le hr with rfl | hr
        · exact ⟨m, hm, by simpa using hf⟩
        · exact ih _ h r hr (by omega)

/-- Where every position of the range can be read, the scan answers. -/
theorem scan_isOk (s : State) (gid : Half) (k p : Nat)
    (h : ∀ r, p ≤ r → r < p + k → ∃ m, memRead s r 6 = .ok m) : ∃ o, scan s gid k p = .ok o := by
  induction k generalizing p with
  | zero => exact ⟨none, rfl⟩
  | succ k ih =>
    obtain ⟨m, hm⟩ := h p (Nat.le_refl _) (by omega)
    rw [scan, show frameOverhead = 6 from rfl, hm]
    dsimp only
    split
    · exact ⟨_, rfl⟩
    · exact ih (p + 1) fun r hr hk => h r (by omega) (by omega)

/-- The scan looks at its reads only. -/
theorem scan_congr (s s' : State) (gid : Half) (k p : Nat)
    (h : ∀ r, p ≤ r → r < p + k → memRead s r 6 = memRead s' r 6) : scan s gid k p = scan s' gid k p := by
  induction k generalizing p with
  | zero => rfl
  | succ k ih =>
    rw [scan, scan, show frameOverhead = 6 from rfl, h p (Nat.le_refl _) (by omega),
      ih (p + 1) fun r hr hk => h r (by omega) (by omega)]

/-- What a matching position holds (R96, R181). -/
theorem frameAt_iff (gid : Half) (m : List Byte) :
    frameAt gid m = true ↔ m.take 4 = [0x55#8, 0xAA#8, 0xEB#8, 0x90#8] ∧ le16 m 4 = gid := by
  rw [frameAt, Bool.and_eq_true, decide_eq_true_eq, decide_eq_true_eq]; rfl

end Sys2Proof.Machine
end

