-- ==== Sys2Proof/Laws/Operands.lean ====
section
/-! SUPPORT. Groups and their numbers; byte sequences as numbers. -/

namespace Sys2Proof.Machine

@[simp] theorem groupOf_groupBits (g : Group) : groupOf (groupBits g) = some g := by cases g <;> rfl

@[simp] theorem groupOf_zero : groupOf 0#2 = none := rfl

theorem groupOf_some (b : BitVec 2) (g : Group) (h : groupOf b = some g) : b = groupBits g := by
  revert b g; decide

theorem groupOf_none (b : BitVec 2) (h : groupOf b = none) : b = 0#2 := by
  revert b; decide

/-- LE16 as a number (R13). -/
theorem le16_toNat (m : List Byte) (k : Nat) :
    (le16 m k).toNat = (byteAt m k).toNat + 256 * (byteAt m (k + 1)).toNat := by
  refine (BitVec.toNat_append _ _).trans ?_
  rw [← Nat.shiftLeft_add_eq_or_of_lt (byteAt m k).isLt, Nat.shiftLeft_eq]; omega

/-- LE32 as a number (R13). -/
theorem le32_toNat (m : List Byte) (k : Nat) :
    (le32 m k).toNat = (byteAt m k).toNat + 256 * (byteAt m (k + 1)).toNat + 65536 * (byteAt m (k + 2)).toNat +
      16777216 * (byteAt m (k + 3)).toNat := by
  refine (BitVec.toNat_append (byteAt m (k + 3) ++ byteAt m (k + 2) ++ byteAt m (k + 1)) (byteAt m k)).trans ?_
  rw [BitVec.toNat_append, BitVec.toNat_append, ← Nat.shiftLeft_add_eq_or_of_lt (byteAt m k).isLt,
    ← Nat.shiftLeft_add_eq_or_of_lt (byteAt m (k + 1)).isLt, ← Nat.shiftLeft_add_eq_or_of_lt (byteAt m (k + 2)).isLt,
    Nat.shiftLeft_eq, Nat.shiftLeft_eq, Nat.shiftLeft_eq]
  omega

theorem inWindow_iff (base addr : Half) :
    inWindow base addr = true ↔ base.toNat ≤ addr.toNat ∧ addr.toNat < base.toNat + 0x200 := by
  rw [inWindow, Bool.and_eq_true, decide_eq_true_eq, decide_eq_true_eq]; rfl

/-- The rawOffset of a row in the window never borrows (R107). -/
theorem roff_toNat (base addr : Half) (h : base.toNat ≤ addr.toNat) : (addr - base).toNat = addr.toNat - base.toNat := by
  rw [BitVec.toNat_sub]; have := addr.isLt; omega

end Sys2Proof.Machine
end

