-- ==== Sys2Proof/Laws/Step.lean ====
section
/-! SUPPORT. What each meaning and each step can do, said once. -/

namespace Sys2Proof.Machine

/-- A catalogue row of any type is the shared row operation. -/
@[simp] theorem exec_ofRow (t : TypeTag) (addr : Half) (s : State) :
    exec (Instr.ofRow t addr) s = interpretRow t addr s := by cases t <;> rfl

/-- REQ: illegal group, sent frame, or rejected address (R150, R152). -/
theorem execReq_cases (a : Byte) (g : BitVec 2) (s t : State) (h : execReq a g s = .next t) :
    (g = 0#2 ∧ t = raiseIllegal s) ∨
    (∃ grp, g = groupBits grp ∧ addressOk a = true ∧ t = complete (requestCrc s.cfg a grp) (sendRequest a grp s)) ∨
    (∃ grp, g = groupBits grp ∧ addressOk a = false ∧ t = raise .invalidAddress 0#16 s) := by
  unfold execReq at h
  split at h
  · next hg => exact .inl ⟨groupOf_none _ hg, by injection h with h; exact h.symm⟩
  · next grp hg =>
    split at h
    · exact .inr (.inl ⟨grp, groupOf_some _ _ hg, ‹_›, by injection h with h; exact h.symm⟩)
    · next ha => exact .inr (.inr ⟨grp, groupOf_some _ _ hg, eq_false_of_ne_true ha, by injection h with h; exact h.symm⟩)

/-- LOC: illegal group, a match, no match, or no capture (R181 to R187). -/
theorem execLoc_cases (g : BitVec 2) (s t : State) (h : execLoc g s = .next t) :
    (g = 0#2 ∧ t = raiseIllegal s) ∨
    (∃ grp p, g = groupBits grp ∧ s.cv = true ∧
      scan s (groupRecord s.cfg grp).gid (scanCount s) 0 = .ok (some p) ∧
      t = complete (BitVec.ofNat 16 (p + frameOverhead)) (located g p s)) ∨
    (∃ grp, g = groupBits grp ∧ s.cv = true ∧ scan s (groupRecord s.cfg grp).gid (scanCount s) 0 = .ok none ∧
      t = raise .signatureNotFound 0#16 { s with pv := false }) ∨
    (∃ grp, g = groupBits grp ∧ s.cv = false ∧ t = raise .outOfSequence 0#16 s) := by
  unfold execLoc at h
  split at h
  · next hg => exact .inl ⟨groupOf_none _ hg, by injection h with h; exact h.symm⟩
  · next grp hg =>
    have hb := groupOf_some _ _ hg
    split at h
    · next hcv =>
      split at h
      · cases h
      · next p hp => exact .inr (.inl ⟨grp, p, hb, hcv, hp, by injection h with h; exact h.symm⟩)
      · next hp => exact .inr (.inr (.inl ⟨grp, hb, hcv, hp, by injection h with h; exact h.symm⟩))
    · next hcv => exact .inr (.inr (.inr ⟨grp, hb, by simpa using hcv, by injection h with h; exact h.symm⟩))

/-- DEC: illegal group, start of the interpreter, or no located frame of the group (R196, R201). -/
theorem execDec_cases (g : BitVec 2) (s t : State) (h : execDec g s = .next t) :
    (g = 0#2 ∧ t = raiseIllegal s) ∨
    (∃ grp, g = groupBits grp ∧ s.pv = true ∧ s.pg = g ∧ t = { s with cidx := 0#16, run := .decoding grp 0#16 }) ∨
    (∃ grp, g = groupBits grp ∧ (s.pv = false ∨ s.pg ≠ g) ∧ t = raise .outOfSequence 0#16 s) := by
  unfold execDec at h
  split at h
  · next hg => exact .inl ⟨groupOf_none _ hg, by injection h with h; exact h.symm⟩
  · next grp hg =>
    have hb := groupOf_some _ _ hg
    split at h
    · next hc =>
      rw [Bool.and_eq_true, decide_eq_true_eq] at hc
      exact .inr (.inl ⟨grp, hb, hc.1, hc.2, by injection h with h; exact h.symm⟩)
    · next hc =>
      refine .inr (.inr ⟨grp, hb, ?_, by injection h with h; exact h.symm⟩)
      rw [Bool.and_eq_true, decide_eq_true_eq, not_and] at hc
      cases hpv : s.pv
      · exact .inl rfl
      · exact .inr (hc hpv)

/-- A catalogue row: skipped, decoded, or IncompleteData (R197 to R200). -/
theorem interpretRow_cases (ty : TypeTag) (addr : Half) (s t : State) (h : interpretRow ty addr s = .next t) :
    ∃ g n, s.run = .decoding g n ∧
      ((inWindow (groupRecord s.cfg g).base addr = false ∧ t = skipRow s) ∨
       (inWindow (groupRecord s.cfg g).base addr = true ∧
          avail s < (addr - (groupRecord s.cfg g).base).toNat + rowWidth ty ∧ t = raise .incompleteData n s) ∨
       (inWindow (groupRecord s.cfg g).base addr = true ∧
          (addr - (groupRecord s.cfg g).base).toNat + rowWidth ty ≤ avail s ∧
          ∃ m, memRead s (s.poff.toNat + (addr - (groupRecord s.cfg g).base).toNat) (rowWidth ty) = .ok m ∧
            t = emitRow g n ⟨s.cidx, ty.code, addr - (groupRecord s.cfg g).base, extract ty m⟩ s)) := by
  unfold interpretRow at h
  split at h
  · next g n hrun =>
    refine ⟨g, n, hrun, ?_⟩
    dsimp only at h
    split at h
    · next hw =>
      split at h
      · next hf =>
        split at h
        · cases h
        · next m hm => exact .inr (.inr ⟨hw, hf, m, hm, by injection h with h; exact h.symm⟩)
      · next hf => exact .inr (.inl ⟨hw, Nat.lt_of_not_le hf, by injection h with h; exact h.symm⟩)
    · next hw => exact .inl ⟨by simpa using hw, by injection h with h; exact h.symm⟩
  · cases h
  · cases h

/-- What a step that answers has done. -/
inductive StepKind (s t : State) : Prop where
  | reset (hr : s.rst = true) (ht : t = resetUnit s)
  | waiting (hr : s.rst = false) (hrun : s.run = .idle) (hc : s.cmd = []) (ht : t = s)
  | illegal (w : Word) (ws : List Word) (e : DecodeError) (hr : s.rst = false) (hrun : s.run = .idle)
      (hc : s.cmd = w :: ws) (hd : decodeCommand w = .error e) (ht : t = raiseIllegal { s with cmd := ws })
  | command (w : Word) (ws : List Word) (i : Instr) (hr : s.rst = false) (hrun : s.run = .idle)
      (hc : s.cmd = w :: ws) (hd : decodeCommand w = .ok i) (ht : exec i { s with cmd := ws } = .next t)
  | capture (hr : s.rst = false) (hrun : s.run = .capturing) (ht : runCapture s = .next t)
  | finish (g : Group) (n : Half) (hr : s.rst = false) (hrun : s.run = .decoding g n)
      (hc : s.cfg.catalog[s.cidx.toNat]? = none) (ht : t = complete n s)
  | row (g : Group) (n : Half) (d : Word) (ty : TypeTag) (hr : s.rst = false) (hrun : s.run = .decoding g n)
      (hc : s.cfg.catalog[s.cidx.toNat]? = some d) (hd : decodeDescriptor d = .ok (Instr.ofRow ty (rowAddrOf d)))
      (ht : interpretRow ty (rowAddrOf d) s = .next t)

/-- Every step that answers is of one of these kinds. -/
theorem step_cases (s t : State) (h : step s = .next t) : StepKind s t := by
  unfold step at h
  split at h
  · next hr => exact .reset hr (by injection h with h; exact h.symm)
  next hr =>
  have hr : s.rst = false := by simpa using hr
  split at h
  · next hrun =>
    unfold nextCommand at h
    cases hc : s.cmd with
    | nil => rw [hc] at h; exact .waiting hr hrun hc (by injection h with h; exact h.symm)
    | cons w ws =>
      rw [hc] at h
      dsimp only at h
      split at h
      · next i hd => exact .command w ws i hr hrun hc hd h
      · next e hd => exact .illegal w ws e hr hrun hc hd (by injection h with h; exact h.symm)
  · next hrun => exact .capture hr hrun h
  · next g n hrun =>
    split at h
    · next hc => exact .finish g n hr hrun hc (by injection h with h; exact h.symm)
    · next d hc =>
      split at h
      · next i hd =>
        obtain ⟨ty, -, -, rfl⟩ := decodeDescriptor_ok d i hd
        exact .row g n d ty hr hrun hc hd (by rwa [exec_ofRow] at h)
      · cases h

/-- What a command that answers has done. -/
inductive CommandKind (s t : State) : Prop where
  | crci (ht : t = complete crcInit { s with crc := crcInit })
  | crcb (a : Byte) (ht : t = complete (crcStep s.crc a) { s with crc := crcStep s.crc a })
  | crcr (ht : t = complete s.crc s)
  | stat (ht : t = complete (statusWord s) s)
  | illegal (ht : t = raiseIllegal s)
  | sent (a : Byte) (g : Group) (ht : t = complete (requestCrc s.cfg a g) (sendRequest a g s))
  | rejected (ht : t = raise .invalidAddress 0#16 s)
  | capture (ht : runCapture (beginCapture s) = .next t)
  | found (g : Group) (p : Nat) (hcv : s.cv = true)
      (hs : scan s (groupRecord s.cfg g).gid (scanCount s) 0 = .ok (some p))
      (ht : t = complete (BitVec.ofNat 16 (p + frameOverhead)) (located (groupBits g) p s))
  | notFound (g : Group) (hs : scan s (groupRecord s.cfg g).gid (scanCount s) 0 = .ok none)
      (ht : t = raise .signatureNotFound 0#16 { s with pv := false })
  | outOfSequence (ht : t = raise .outOfSequence 0#16 s)
  | startDec (g : Group) (hpv : s.pv = true) (hpg : s.pg = groupBits g)
      (ht : t = { s with cidx := 0#16, run := .decoding g 0#16 })

/-- Every command that answers has done one of these. -/
theorem command_cases (w : Word) (i : Instr) (s t : State) (hd : decodeCommand w = .ok i) (ht : exec i s = .next t) :
    CommandKind s t := by
  obtain ⟨-, h⟩ := decodeCommand_ok w i hd
  rcases h with ⟨-, -, -, rfl⟩ | ⟨-, -, rfl⟩ | ⟨-, -, -, rfl⟩ | ⟨-, -, -, rfl⟩ | ⟨-, rfl⟩ | ⟨-, -, -, rfl⟩ |
    ⟨-, -, rfl⟩ | ⟨-, -, rfl⟩
  · cases ht; exact .crci rfl
  · cases ht; exact .crcb _ rfl
  · cases ht; exact .crcr rfl
  · cases ht; exact .stat rfl
  · rcases execReq_cases _ _ _ _ ht with ⟨-, rfl⟩ | ⟨_, -, -, rfl⟩ | ⟨_, -, -, rfl⟩
    · exact .illegal rfl
    · exact .sent _ _ rfl
    · exact .rejected rfl
  · exact .capture ht
  · rcases execLoc_cases _ _ _ ht with ⟨-, rfl⟩ | ⟨_, _, hg, h1, h2, rfl⟩ | ⟨_, -, -, h, rfl⟩ | ⟨_, -, -, rfl⟩
    · exact .illegal rfl
    · rw [hg]; exact .found _ _ h1 h2 rfl
    · exact .notFound _ h rfl
    · exact .outOfSequence rfl
  · rcases execDec_cases _ _ _ ht with ⟨-, rfl⟩ | ⟨_, h1, h2, h3, rfl⟩ | ⟨_, -, -, rfl⟩
    · exact .illegal rfl
    · exact .startDec _ h2 (h3.trans h1) rfl
    · exact .outOfSequence rfl

/-- Setting the bit of an error the unit raises leaves bits 0 and 1 of ERRS (R35). -/
theorem setErrBit_low (e : BitVec 8) (k : ErrorKind) (h : k ≠ .transportUnavailable) :
    (setErrBit e k).getLsbD 0 = e.getLsbD 0 ∧ (setErrBit e k).getLsbD 1 = e.getLsbD 1 := by
  cases k <;> first | exact absurd rfl h | simp [setErrBit, ErrorKind.code]

/-- The fields a step of a running CAP can change, and its streams (R167). -/
theorem runCapture_fields (s t : State) (h : runCapture s = .next t) :
    t = { s with mem := t.mem, len := t.len, cv := t.cv, errs := t.errs, rx := t.rx, cpl := t.cpl, run := t.run } ∧
      t.rx <:+ s.rx ∧ s.cpl <+: t.cpl := by
  have hs := captureTokens_suffix s.cfg.bufCap s.rx s.mem s.len
  rcases runCapture_cases s t h with ⟨-, -, rfl⟩ | ⟨-, -, rfl⟩ | ⟨-, rfl⟩
  · exact ⟨rfl, hs, List.prefix_append _ _⟩
  · exact ⟨rfl, hs, List.prefix_append _ _⟩
  · exact ⟨rfl, hs, List.prefix_refl _⟩

end Sys2Proof.Machine
end

