-- ==== Sys2Proof/Machine/Environment.lean ====
section
/-! DEFINITION. Endless runs of the unit in its surroundings, and the assumption about the transport under which a capture
ends (spec 70_reset_and_hazards.md R292, 42_capture.md R166, 92_eei_decisions.md D29). No step uses this. -/

namespace Sys2Proof.Machine

/-- `r k` is the state before step `k`; first the events `env k` happen, none of them a step of the host inside a command,
then the unit takes a step (R253). -/
def IsRun (env : Nat → List PortEvent) (r : Nat → State) : Prop :=
  ∀ k, eventsAllowed (r k) (env k) = true ∧ step (applyEvents (env k) (r k)) = .next (r (k + 1))

/-- A CAP that waits: its loop has room in the buffer and finds RX empty (R166). -/
def WaitsForToken (s : State) : Prop := s.run = .capturing ∧ s.rx = [] ∧ s.len.toNat < s.cfg.bufCap

/-- The transport delivers a token in this gap. -/
def DeliversToken (es : List PortEvent) : Prop := ∃ ts, ts ≠ [] ∧ PortEvent.deliver ts ∈ es

/-- The fairness assumption on RX: a waiting CAP eventually gets a token (R292), unless its wait ends otherwise, which only
reset can bring about. -/
def FairRx (env : Nat → List PortEvent) (r : Nat → State) : Prop :=
  ∀ k, WaitsForToken (r k) → ∃ j, k ≤ j ∧ (DeliversToken (env j) ∨ ¬ WaitsForToken (r j))

/-- From step `k` on the reset input is released and stays so. -/
def NoResetFrom (env : Nat → List PortEvent) (r : Nat → State) (k : Nat) : Prop :=
  (r k).rst = false ∧ ∀ j, k ≤ j → PortEvent.assertReset ∉ env j

end Sys2Proof.Machine
end

