-- ==== Sys2Proof/Laws/Liveness.lean ====
section
/-! SUPPORT. When a capture ends (spec 70_reset_and_hazards.md R292): under the fairness assumption on RX it does, and
without a token and without reset it does not. -/

namespace Sys2Proof.Machine

@[simp] theorem applyEvents_nil (s : State) : applyEvents [] s = s := rfl

@[simp] theorem applyEvents_cons (e : PortEvent) (es : List PortEvent) (s : State) :
    applyEvents (e :: es) s = applyEvents es (applyEvent s e) := rfl

@[simp] theorem eventsAllowed_nil (s : State) : eventsAllowed s [] = true := rfl

@[simp] theorem eventsAllowed_cons (e : PortEvent) (es : List PortEvent) (s : State) :
    eventsAllowed s (e :: es) = (eventAllowed s e && eventsAllowed (applyEvent s e) es) := rfl

/-- The host does not issue while a command runs (R253). -/
theorem eventAllowed_issue (s : State) (ws : List Word) : eventAllowed s (.issue ws) = true ↔ s.run = .idle :=
  decide_eq_true_iff

/-- What the allowed events leave while a command runs and no reset comes: tokens appended to RX, and nothing else
(R253). -/
theorem applyEvents_running (es : List PortEvent) (s : State) (ha : eventsAllowed s es = true) (hrun : s.run ≠ .idle)
    (h : PortEvent.assertReset ∉ es) (hr : s.rst = false) :
    ∃ ts, applyEvents es s = deliver ts s ∧ (DeliversToken es ↔ ts ≠ []) := by
  induction es generalizing s with
  | nil => exact ⟨[], by simp [deliver], by simp [DeliversToken]⟩
  | cons e es ih =>
    rw [List.mem_cons, not_or] at h
    rw [eventsAllowed_cons, Bool.and_eq_true] at ha
    cases e with
    | issue vs => exact absurd ((eventAllowed_issue s vs).1 ha.1) hrun
    | deliver us =>
      obtain ⟨ts, hs, hd⟩ := ih (deliver us s) ha.2 hrun h.2 hr
      refine ⟨us ++ ts, by rw [applyEvents_cons, applyEvent, hs]; simp [deliver], ?_⟩
      have hcons : DeliversToken (.deliver us :: es) ↔ us ≠ [] ∨ DeliversToken es := by
        simp only [DeliversToken, List.mem_cons, PortEvent.deliver.injEq, and_or_left, exists_or]
        exact or_congr_left ⟨fun ⟨_, hx, he⟩ => he ▸ hx, fun hu => ⟨us, hu, rfl⟩⟩
      rw [hcons, hd, ne_eq, ne_eq, ne_eq, List.append_eq_nil_iff, Classical.not_and_iff_not_or_not]
    | assertReset => exact absurd rfl h.1
    | releaseReset =>
      have hs : applyEvent s .releaseReset = s := releaseReset_released s hr
      rw [hs] at ha
      obtain ⟨ts, ht, hd⟩ := ih s ha.2 hrun h.2 hr
      exact ⟨ts, by rw [applyEvents_cons, hs, ht], by simpa [DeliversToken] using hd⟩

/-- A step of a running CAP after which it still runs: it waits, has stored a byte for every token it found, and reset and
parameters are as before (R166). -/
theorem capturing_step (s t : State) (hcap : s.cfg.bufCap ≤ 65535) (hr : s.rst = false) (hs : s.run = .capturing)
    (h : step s = .next t) (ht : t.run = .capturing) :
    WaitsForToken t ∧ t.len.toNat = s.len.toNat + s.rx.length ∧ t.cfg = s.cfg ∧ t.rst = false := by
  have hstep : step s = runCapture s := by simp [step, hr, hs]
  rw [hstep] at h
  rcases runCapture_cases s t h with ⟨-, -, rfl⟩ | ⟨-, -, rfl⟩ | ⟨he, rfl⟩
  · cases ht
  · cases ht
  · have hw := captureTokens_waiting _ _ _ _ he
    exact ⟨⟨rfl, hw.1, hw.2⟩, captureTokens_waiting_len _ hcap _ _ _ he, rfl, hr⟩

/-- A step of a run in which a CAP goes on, with no reset: it waits afterwards, and its `len` has grown exactly when there
was a token to take. -/
theorem capturing_run (env : Nat → List PortEvent) (r : Nat → State) (k : Nat) (hrun : IsRun env r)
    (hcap : (r k).cfg.bufCap ≤ 65535) (hreset : NoResetFrom env r k) (hk : (r k).run = .capturing)
    (hk' : (r (k + 1)).run = .capturing) :
    WaitsForToken (r (k + 1)) ∧ (r (k + 1)).cfg = (r k).cfg ∧ NoResetFrom env r (k + 1) ∧
      (r k).len.toNat ≤ (r (k + 1)).len.toNat ∧
      (DeliversToken (env k) → (r k).len.toNat < (r (k + 1)).len.toNat) := by
  obtain ⟨hallowed, h⟩ := hrun k
  obtain ⟨ts, hs, hd⟩ := applyEvents_running (env k) (r k) hallowed (by simp [hk]) (hreset.2 k (Nat.le_refl k)) hreset.1
  rw [hs] at h
  obtain ⟨hw, hl, hc, hrst⟩ := capturing_step (deliver ts (r k)) _ hcap hreset.1 hk h hk'
  have hl : (r (k + 1)).len.toNat = (r k).len.toNat + ((r k).rx.length + ts.length) := by
    rw [hl, deliver_rx, List.length_append]; rfl
  refine ⟨hw, hc, ⟨hrst, fun j hj => hreset.2 j (by omega)⟩, by omega, fun ht => ?_⟩
  have := List.length_pos_iff.2 (hd.1 ht)
  omega

/-- A CAP that runs from step `k` to step `k + d` without reset still has the parameters and the progress it had. -/
theorem capturing_stretch (env : Nat → List PortEvent) (r : Nat → State) (hrun : IsRun env r) (k d : Nat)
    (hcap : (r k).cfg.bufCap ≤ 65535) (hreset : NoResetFrom env r k)
    (h : ∀ j, k ≤ j → j ≤ k + d → (r j).run = .capturing) :
    (r (k + d)).cfg = (r k).cfg ∧ NoResetFrom env r (k + d) ∧ (r k).len.toNat ≤ (r (k + d)).len.toNat := by
  induction d with
  | zero => exact ⟨rfl, hreset, Nat.le_refl _⟩
  | succ d ih =>
    obtain ⟨hc, hn, hl⟩ := ih fun j h1 h2 => h j h1 (by omega)
    obtain ⟨-, hc', hn', hl', -⟩ := capturing_run env r (k + d) hrun (hc ▸ hcap) hn (h _ (by omega) (by omega))
      (h _ (by omega) (by omega))
    exact ⟨hc'.trans hc, hn', Nat.le_trans hl hl'⟩

/-- R292: under the fairness assumption a running CAP ends, in any run without reset. -/
theorem capture_ends (env : Nat → List PortEvent) (r : Nat → State) (hrun : IsRun env r) (hfair : FairRx env r) (k : Nat)
    (hcap : (r k).cfg.bufCap ≤ 65535) (hreset : NoResetFrom env r k) : ∃ j, k ≤ j ∧ (r j).run ≠ .capturing := by
  by_contra hnever
  have hall : ∀ j, k ≤ j → (r j).run = .capturing := fun j hj => by
    by_contra hne; exact hnever ⟨j, hj, hne⟩
  -- after every step the CAP waits, so a token always comes and `len` passes every bound
  have hwait : ∀ j, k ≤ j → WaitsForToken (r (j + 1)) := fun j hj => by
    obtain ⟨hc, hn, -⟩ := capturing_stretch env r hrun k (j - k) hcap hreset fun i h1 _ => hall i h1
    rw [Nat.add_sub_cancel' hj] at hc hn
    exact (capturing_run env r j hrun (hc ▸ hcap) hn (hall j hj) (hall _ (by omega))).1
  have hgrow : ∀ n, ∃ j, k < j ∧ n ≤ (r j).len.toNat := by
    intro n
    induction n with
    | zero => exact ⟨k + 1, by omega, Nat.zero_le _⟩
    | succ n ih =>
      obtain ⟨j, hj, hn⟩ := ih
      obtain ⟨i, hi, hd⟩ := hfair j (by have := hwait (j - 1) (by omega); rwa [Nat.sub_add_cancel (by omega)] at this)
      have hd : DeliversToken (env i) := hd.resolve_right fun hw => hw (by
        have := hwait (i - 1) (by omega); rwa [Nat.sub_add_cancel (by omega)] at this)
      obtain ⟨hc, hr, -⟩ := capturing_stretch env r hrun k (i - k) hcap hreset fun m h1 _ => hall m h1
      rw [Nat.add_sub_cancel' (by omega)] at hc hr
      have hci : (r i).cfg.bufCap ≤ 65535 := hc ▸ hcap
      obtain ⟨-, -, -, -, hlt⟩ := capturing_run env r i hrun hci hr (hall i (by omega)) (hall _ (by omega))
      obtain ⟨hcj, hrj, -⟩ := capturing_stretch env r hrun k (j - k) hcap hreset fun m h1 _ => hall m h1
      rw [Nat.add_sub_cancel' (by omega)] at hcj hrj
      obtain ⟨-, -, hle⟩ := capturing_stretch env r hrun j (i - j) (hcj ▸ hcap) hrj fun m h1 _ => hall m (by omega)
      rw [Nat.add_sub_cancel' hi] at hle
      exact ⟨i + 1, by omega, by have := hlt hd; omega⟩
  obtain ⟨j, -, hj⟩ := hgrow 65536
  have := (r j).len.isLt
  omega

/-- R292: a waiting CAP to which no token is ever delivered never ends, short of reset. -/
theorem capture_starves (env : Nat → List PortEvent) (r : Nat → State) (hrun : IsRun env r) (k d : Nat)
    (hw : WaitsForToken (r k)) (hreset : NoResetFrom env r k) (hnone : ∀ j, k ≤ j → ¬ DeliversToken (env j)) :
    WaitsForToken (r (k + d)) := by
  suffices h : WaitsForToken (r (k + d)) ∧ NoResetFrom env r (k + d) from h.1
  induction d with
  | zero => exact ⟨hw, hreset⟩
  | succ d ih =>
    obtain ⟨⟨h1, h2, h3⟩, hn⟩ := ih
    obtain ⟨hallowed, h⟩ := hrun (k + d)
    obtain ⟨ts, hs, hd⟩ := applyEvents_running (env (k + d)) (r (k + d)) hallowed (by simp [h1]) (hn.2 _ (Nat.le_refl _))
      hn.1
    have hts : ts = [] := by
      by_contra h; exact hnone (k + d) (by omega) (hd.2 h)
    have hstep : step (deliver ts (r (k + d))) = runCapture (deliver ts (r (k + d))) := by
      simp [step, hn.1, h1]
    rw [hs, hstep, runCapture] at h
    simp only [deliver_cfg, deliver_rx, h2, hts, List.append_nil, deliver_mem, deliver_len, captureTokens_nil,
      decide_eq_true_eq, if_neg (Nat.not_le.2 h3)] at h
    injection h with h
    rw [← Nat.add_assoc]
    exact ⟨by rw [← h]; exact ⟨rfl, rfl, h3⟩, by rw [← h]; exact hn.1, fun j hj => hn.2 j (by omega)⟩

end Sys2Proof.Machine
end

