-- ==== Sys2Proof/Laws/PerInstr.lean ====
section
/-! SUPPORT. Statements made per instruction. ReservedZero: the reserved bits of an instruction's word are zero
(spec 30_encoding.md R91, R98). -/

namespace Sys2Proof.Laws.ReservedZero

/-- The reserved bits of the encoding are zero: bits 31:18 of a command word, bits 31:20 of a descriptor word. -/
def Statement (i : Instr) : Prop := if i.isCommand then rsvOf (encode i) = 0#14 else rowRsvOf (encode i) = 0#12

theorem crci : Statement .crci := rsvOf_commandWord _ _ _
theorem crcb (a : Byte) : Statement (.crcb a) := rsvOf_commandWord _ _ _
theorem crcr : Statement .crcr := rsvOf_commandWord _ _ _
theorem stat : Statement .stat := rsvOf_commandWord _ _ _
theorem req (a : Byte) (g : BitVec 2) : Statement (.req a g) := rsvOf_commandWord _ _ _
theorem cap : Statement .cap := rsvOf_commandWord _ _ _
theorem loc (g : BitVec 2) : Statement (.loc g) := rsvOf_commandWord _ _ _
theorem dec (g : BitVec 2) : Statement (.dec g) := rsvOf_commandWord _ _ _
theorem u8 (addr : Half) : Statement (.u8 addr) := rowRsvOf_descriptorWord _ _
theorem i8 (addr : Half) : Statement (.i8 addr) := rowRsvOf_descriptorWord _ _
theorem u16 (addr : Half) : Statement (.u16 addr) := rowRsvOf_descriptorWord _ _
theorem i16 (addr : Half) : Statement (.i16 addr) := rowRsvOf_descriptorWord _ _
theorem u32 (addr : Half) : Statement (.u32 addr) := rowRsvOf_descriptorWord _ _
theorem i32 (addr : Half) : Statement (.i32 addr) := rowRsvOf_descriptorWord _ _
theorem f32 (addr : Half) : Statement (.f32 addr) := rowRsvOf_descriptorWord _ _
theorem text16 (addr : Half) : Statement (.text16 addr) := rowRsvOf_descriptorWord _ _
theorem text8 (addr : Half) : Statement (.text8 addr) := rowRsvOf_descriptorWord _ _

end Sys2Proof.Laws.ReservedZero
end

