-- ==== Sys2Proof/Laws/Run.lean ====
section
/-! SUPPORT. Runs of several steps, and what well-formed parameters give. -/

namespace Sys2Proof.Machine

@[simp] theorem steps_zero (s : State) : steps 0 s = .next s := rfl

/-- A first step that answers. -/
theorem steps_succ (k : Nat) (s t : State) (h : step s = .next t) : steps (k + 1) s = steps k t := by
  rw [steps, h]

/-- A run of one step is the step. -/
theorem steps_one (s : State) : steps 1 s = step s := by
  rw [steps]
  cases step s <;> rfl

/-- Runs compose. -/
theorem steps_add (j k : Nat) (s t : State) (h : steps j s = .next t) : steps (j + k) s = steps k t := by
  induction j generalizing s with
  | zero => cases h; rw [Nat.zero_add]
  | succ j ih =>
    rw [Nat.add_right_comm, steps]
    rw [steps] at h
    cases hs : step s with
    | next u => rw [hs] at h; exact ih u h
    | fault f => rw [hs] at h; cases h
    | refused r => rw [hs] at h; cases h

/-- The buffer has the canonical form right after reset, and a reset step gives it back. -/
theorem reset_mem_wf (s : State) : Memory.wf State.reset.mem ∧ Memory.wf (resetUnit s).mem := ⟨wf_nil, wf_nil⟩

/-- What well-formed parameters give (R5, R8). -/
theorem wellFormed_bounds (p : Params) (h : p.wellFormed = true) :
    6 ≤ p.bufCap ∧ p.bufCap ≤ 65535 ∧ p.nDesc ≤ 65535 ∧ ∀ d ∈ p.catalog, descriptorOk d = true := by
  simp only [Params.wellFormed, Bool.and_eq_true, decide_eq_true_eq, List.all_eq_true] at h
  exact ⟨h.1.1.1.1, h.1.1.1.2, h.1.1.2, h.1.2⟩

end Sys2Proof.Machine
end

