-- ==== Sys2Proof/Machine/Assembler.lean ====
section
/-! DEFINITION. The notation of spec 30_encoding.md section 10: mnemonics and written forms (R109), and the
pseudo-instructions CRC16, QUERY, RUN with the host's rule for issuing their commands (R110). The unit knows none of
this: no step uses it. -/

namespace Sys2Proof.Machine

/-- The mnemonic of an instruction, as the opcode table spells it (R92, R100). -/
def mnemonicOf (i : Instr) : String :=
  match i with
  | .crci => "CRCI"
  | .crcb _ => "CRCB"
  | .crcr => "CRCR"
  | .stat => "STAT"
  | .req _ _ => "REQ"
  | .cap => "CAP"
  | .loc _ => "LOC"
  | .dec _ => "DEC"
  | .u8 _ => "U8"
  | .i8 _ => "I8"
  | .u16 _ => "U16"
  | .i16 _ => "I16"
  | .u32 _ => "U32"
  | .i32 _ => "I32"
  | .f32 _ => "F32"
  | .text16 _ => "Text16"
  | .text8 _ => "Text8"

/-- A catalogue row as written: `.desc addr, TAG`. -/
def writtenRow (addr : Half) (tag : String) : String := ".desc " ++ toString addr.toNat ++ ", " ++ tag

/-- The written form of an instruction, numbers in decimal (R11, R109). -/
def writtenForm (i : Instr) : String :=
  match i with
  | .crci => mnemonicOf i
  | .crcb a => mnemonicOf i ++ " " ++ toString a.toNat
  | .crcr => mnemonicOf i
  | .stat => mnemonicOf i
  | .req a g => mnemonicOf i ++ " " ++ toString a.toNat ++ ", " ++ toString g.toNat
  | .cap => mnemonicOf i
  | .loc g => mnemonicOf i ++ " " ++ toString g.toNat
  | .dec g => mnemonicOf i ++ " " ++ toString g.toNat
  | .u8 addr => writtenRow addr (mnemonicOf i)
  | .i8 addr => writtenRow addr (mnemonicOf i)
  | .u16 addr => writtenRow addr (mnemonicOf i)
  | .i16 addr => writtenRow addr (mnemonicOf i)
  | .u32 addr => writtenRow addr (mnemonicOf i)
  | .i32 addr => writtenRow addr (mnemonicOf i)
  | .f32 addr => writtenRow addr (mnemonicOf i)
  | .text16 addr => writtenRow addr (mnemonicOf i)
  | .text8 addr => writtenRow addr (mnemonicOf i)

/-- CRC16 b0, ..., bn-1 (R110). -/
def expandCrc16 (bs : List Byte) : List Instr := .crci :: (bs.map .crcb ++ [.crcr])

/-- The commands of QUERY addr, g, in order (R110). -/
def expandQuery (addr : Byte) (g : Group) : List Instr :=
  [.req addr (groupBits g), .cap, .loc (groupBits g), .dec (groupBits g)]

/-- Where the host stands in a list of commands, given the error codes of the commands completed so far: at a command to
issue, or past the list (all done, or left after an error) with the codes not yet accounted for. -/
inductive Progress where
  | toIssue (i : Instr)
  | past (codes : List (BitVec 4))
deriving DecidableEq, Repr

/-- Each command is issued only if every earlier one completed with code 0 (R110). -/
def progress : List Instr → List (BitVec 4) → Progress
  | [], codes => .past codes
  | i :: _, [] => .toIssue i
  | _ :: is, c :: codes => if c = 0#4 then progress is codes else .past codes

/-- The next command the host issues for QUERY addr, g; none when the expansion is over (R110). -/
def nextOfQuery (addr : Byte) (g : Group) (codes : List (BitVec 4)) : Option Instr :=
  match progress (expandQuery addr g) codes with
  | .toIssue i => some i
  | .past _ => none

/-- The next command for the remaining groups of a run, then STAT (R110). -/
def nextOfGroups (addr : Byte) : List Group → List (BitVec 4) → Option Instr
  | [], [] => some .stat
  | [], _ :: _ => none
  | g :: gs, codes =>
    match progress (expandQuery addr g) codes with
    | .toIssue i => some i
    | .past rest => nextOfGroups addr gs rest

/-- The next command the host issues for RUN addr: every QUERY is issued whatever the earlier ones returned, except that
the run stops when the first REQ returns InvalidAddress (R110, R243). -/
def nextOfRun (addr : Byte) (codes : List (BitVec 4)) : Option Instr :=
  if codes.head? = some ErrorKind.invalidAddress.code then none
  else nextOfGroups addr [.g1, .g2, .g3] codes

end Sys2Proof.Machine
end

