-- ==== Sys2Proof/Tests/Slice0.lean ====
section
/-! SUPPORT. Tests: ill-formed terms refused, words written out from the spec decoded, one step per test with the results
of spec/95_test_vectors.md, and for each statement with hypotheses a state and operands that meet them. -/

namespace Sys2Proof.Tests

open Sys2Proof.Machine

/-! ### Helpers -/

/-- The cells of a byte sequence stored from index `a` on. -/
def cellsFrom : Nat → List Byte → Memory
  | _, [] => []
  | a, b :: bs => (a, b) :: cellsFrom (a + 1) bs

/-- The state after a successful CAP of these bytes, from reset. -/
def capturedState (bs : List Byte) : State :=
  { State.reset with mem := cellsFrom 0 bs, len := BitVec.ofNat 16 bs.length, cv := true }

/-- Signature and identifier of group 1. -/
def head1 : List Byte := [0x55#8, 0xAA#8, 0xEB#8, 0x90#8, 0x01#8, 0x00#8]

/-- The state after CAP and LOC 1 of a frame with this payload. -/
def locatedState (payload : List Byte) : State :=
  { capturedState (head1 ++ payload) with poff := 6#16, pv := true, pg := 1#2 }

/-- A DEC 1 at its first row over this payload. -/
def decodingState (payload : List Byte) : State :=
  { locatedState payload with run := .decoding .g1 0#16 }

/-- Part of the next state, if there is one. -/
def after {α : Type} (o : Host.Outcome State Fault Refusal) (f : State → α) : Option α :=
  match o with
  | .next t => some (f t)
  | .fault _ => none
  | .refused _ => none

/-- The field records of a row executed at the first step of a DEC 1, as value and abstract value. -/
def fieldOf (i : Instr) (payload : List Byte) : Option (List (BitVec 128 × Option FieldValue)) :=
  after (exec i (decodingState payload)) fun t => t.fld.map fun r => (r.val, r.value)

/-- What a step leaves that a completed command shows: its completion records and ERRS. -/
def ended (o : Host.Outcome State Fault Refusal) : Option (List Completion × BitVec 8) :=
  after o fun t => (t.cpl, t.errs)

/-! ### Well-formedness: each check refuses an ill-formed term -/

theorem test_wf_req : (Instr.req 1#8 0#2).wellFormed = false := by decide
theorem test_wf_loc : (Instr.loc 0#2).wellFormed = false := by decide
theorem test_wf_dec : (Instr.dec 0#2).wellFormed = false := by decide
theorem test_wf_bufCap_low : ({ Params.default with bufCap := 5 } : Params).wellFormed = false := by decide
theorem test_wf_bufCap_high : ({ Params.default with bufCap := 65536 } : Params).wellFormed = false := by decide
theorem test_wf_tag : ({ Params.default with catalog := [0x00091000#32] } : Params).wellFormed = false := by decide
theorem test_wf_rsv : ({ Params.default with catalog := [0x00100000#32] } : Params).wellFormed = false := by decide
theorem test_wf_address_twice :
    ({ Params.default with catalog := [0x00041000#32, 0x00001000#32] } : Params).wellFormed = false := by decide
theorem test_wf_rows (rows : List Word) (h : rows.length = 65536) :
    ({ Params.default with catalog := rows } : Params).wellFormed = false := by
  have hn : ¬ ({ Params.default with catalog := rows } : Params).nDesc ≤ 65535 := by
    unfold Params.nDesc; rw [h]; decide
  rw [Params.wellFormed, decide_eq_false hn, Bool.and_false]; rfl

/-- Catalogue X of spec/95_test_vectors.md section 9. -/
def catalogX : List Word :=
  [0x00041000#32, 0x00051004#32, 0x00021008#32, 0x0003100A#32, 0x0000100C#32, 0x0001100D#32, 0x00061010#32,
   0x00021200#32, 0x00081204#32, 0x00071400#32, 0x00041410#32, 0x00000FFF#32, 0x00001600#32]

theorem test_wf_catalogX : ({ Params.default with catalog := catalogX } : Params).wellFormed = true := by decide

/-! ### Decoding: words written out from R91, R92, R98, R109, R233 -/

theorem test_decode_crci : decodeCommand 0x00000001#32 = .ok .crci := by decide
theorem test_decode_crcb : decodeCommand 0x0000FF02#32 = .ok (.crcb 0xFF#8) := by decide
theorem test_decode_crcr : decodeCommand 0x00000003#32 = .ok .crcr := by decide
theorem test_decode_stat : decodeCommand 0x00000004#32 = .ok .stat := by decide
theorem test_decode_req : decodeCommand 0x00030F10#32 = .ok (.req 15#8 3#2) := by decide
theorem test_decode_cap : decodeCommand 0x00000011#32 = .ok .cap := by decide
theorem test_decode_loc : decodeCommand 0x00030012#32 = .ok (.loc 3#2) := by decide
theorem test_decode_dec : decodeCommand 0x00020013#32 = .ok (.dec 2#2) := by decide
theorem test_decode_u8 : decodeDescriptor 0x0000100C#32 = .ok (.u8 0x100C#16) := by decide
theorem test_decode_i8 : decodeDescriptor 0x0001100D#32 = .ok (.i8 0x100D#16) := by decide
theorem test_decode_u16 : decodeDescriptor 0x00021008#32 = .ok (.u16 0x1008#16) := by decide
theorem test_decode_i16 : decodeDescriptor 0x0003100A#32 = .ok (.i16 0x100A#16) := by decide
theorem test_decode_u32 : decodeDescriptor 0x00041000#32 = .ok (.u32 0x1000#16) := by decide
theorem test_decode_i32 : decodeDescriptor 0x00051004#32 = .ok (.i32 0x1004#16) := by decide
theorem test_decode_f32 : decodeDescriptor 0x00061010#32 = .ok (.f32 0x1010#16) := by decide
theorem test_decode_text16 : decodeDescriptor 0x00071400#32 = .ok (.text16 0x1400#16) := by decide
theorem test_decode_text8 : decodeDescriptor 0x00081204#32 = .ok (.text8 0x1204#16) := by decide

theorem test_decode_refuses :
    decodeCommand 0x00000005#32 = .error .reservedOpcode ∧ decodeCommand 0x00000101#32 = .error .unusedA ∧
      decodeCommand 0x00010002#32 = .error .unusedG ∧ decodeCommand 0x00040001#32 = .error .reservedBits ∧
      decodeDescriptor 0x00091000#32 = .error .reservedTag ∧
      decodeDescriptor 0x00101000#32 = .error .reservedRowBits := by decide

/-- The words of the opcode table, its variable bits zero. -/
theorem test_decode_table :
    [0x01, 0x02, 0x03, 0x04, 0x10, 0x11, 0x12, 0x13, 0x00000, 0x10000, 0x20000, 0x30000, 0x40000, 0x50000, 0x60000,
      0x70000, 0x80000].map (decodeTableWord 32) =
    [some .crci, some (.crcb 0#8), some .crcr, some .stat, some (.req 0#8 0#2), some .cap, some (.loc 0#2),
      some (.dec 0#2), some (.u8 0#16), some (.i8 0#16), some (.u16 0#16), some (.i16 0#16), some (.u32 0#16),
      some (.i32 0#16), some (.f32 0#16), some (.text16 0#16), some (.text8 0#16)] := by decide

/-! ### One step each: section 2 of the vectors, the CRC engine -/

theorem test_crci :
    ended (exec .crci { State.reset with crc := 0x1372#16 }) = some ([⟨0#4, 0xFFFF#16⟩], 0x00#8) := by decide
theorem test_crcb_one : ended (exec (.crcb 0x01#8) State.reset) = some ([⟨0#4, 0x807E#16⟩], 0x00#8) := by decide
theorem test_crcb_last :
    after (exec (.crcb 0x39#8) { State.reset with crc := 0x37DD#16 }) State.crc = some 0x4B37#16 := by decide
theorem test_crcr :
    ended (exec .crcr { State.reset with crc := 0x1372#16 }) = some ([⟨0#4, 0x1372#16⟩], 0x00#8) := by decide
theorem test_crc16_digits :
    crc16 [0x31#8, 0x32#8, 0x33#8, 0x34#8, 0x35#8, 0x36#8, 0x37#8, 0x38#8, 0x39#8] = 0x4B37#16 := by decide

/-! ### Section 3, REQ -/

theorem test_req_sent :
    after (exec (.req 1#8 1#2) State.reset) (fun t => (t.tx, t.crc, t.cpl)) =
      some ([0x01#8, 0x10#8, 0x16#8, 0x1E#8, 0#8, 0#8, 0#8, 0#8, 0#8, 0x72#8, 0x13#8], 0x1372#16,
        [⟨0#4, 0x1372#16⟩]) := by decide
theorem test_req_rejected :
    after (exec (.req 16#8 1#2) State.reset) (fun t => (t.tx, t.crc, t.cpl, t.errs)) =
      some ([], 0xFFFF#16, [⟨2#4, 0#16⟩], 0x04#8) := by decide

/-! ### Section 4, CAP: vectors A5 and A2 -/

theorem test_cap_noise :
    after (exec .cap { State.reset with
        rx := ([0x00#8, 0x55#8, 0xAA#8, 0xEB#8, 0x90#8, 0x01#8, 0x00#8, 0x64#8].map .byte) ++
          [.quiet, .byte 0x77#8] }) (fun t => (t.len, t.cv, t.pv, t.rx, t.cpl)) =
      some (8#16, true, false, [.byte 0x77#8], [⟨0#4, 8#16⟩]) := by decide
theorem test_cap_short :
    after (exec .cap { State.reset with
        rx := ([0x55#8, 0xAA#8, 0xEB#8, 0x90#8, 0x01#8].map .byte) ++ [.quiet] })
        (fun t => (t.mem, t.cv, t.rx, t.cpl, t.errs)) =
      some ([(0, 0x55#8), (1, 0xAA#8), (2, 0xEB#8), (3, 0x90#8), (4, 0x01#8)], false, [], [⟨3#4, 5#16⟩],
        0x08#8) := by decide

/-! ### Section 5, LOC: vectors L3 and L2 -/

theorem test_loc_second_frame :
    after (exec (.loc 1#2) (capturedState ([0x55#8, 0xAA#8, 0xEB#8, 0x90#8, 0x02#8, 0x00#8] ++ head1 ++ [0x64#8])))
        (fun t => (t.poff, t.pv, t.pg, t.cpl)) = some (12#16, true, 1#2, [⟨0#4, 12#16⟩]) := by decide
theorem test_loc_other_group :
    after (exec (.loc 2#2) (capturedState ([0x00#8] ++ head1 ++ [0x64#8])))
        (fun t => (t.poff, t.pv, t.cpl, t.errs)) = some (0#16, false, [⟨4#4, 0#16⟩], 0x10#8) := by decide

/-! ### Section 6, DEC and the type tags -/

theorem test_dec_empty_catalogue :
    ended (step { decodingState [0x64#8] with cidx := 0#16 }) = some ([⟨0#4, 0#16⟩], 0x00#8) := by decide
theorem test_dec_other_group :
    ended (exec (.dec 2#2) (locatedState [0x64#8])) = some ([⟨7#4, 0#16⟩], 0x80#8) := by decide
theorem test_u8 : fieldOf (.u8 0x1000#16) [0x9C#8] = some [(0x9C#128, some (.natural 156))] := by decide
theorem test_i8 : fieldOf (.i8 0x1000#16) [0x80#8] = some [(0xFFFFFF80#128, some (.signed (-128)))] := by decide
theorem test_u16 : fieldOf (.u16 0x1000#16) [0x34#8, 0x12#8] = some [(0x1234#128, some (.natural 4660))] := by decide
theorem test_i16 :
    fieldOf (.i16 0x1000#16) [0x18#8, 0xFC#8] = some [(0xFFFFFC18#128, some (.signed (-1000)))] := by decide
theorem test_u32 :
    fieldOf (.u32 0x1000#16) [0x78#8, 0x56#8, 0x34#8, 0x12#8] =
      some [(0x12345678#128, some (.natural 305419896))] := by decide
theorem test_i32 :
    fieldOf (.i32 0x1000#16) [0xC0#8, 0xBD#8, 0xF0#8, 0xFF#8] =
      some [(0xFFF0BDC0#128, some (.signed (-1000000)))] := by decide
theorem test_f32 :
    fieldOf (.f32 0x1000#16) [0x00#8, 0x00#8, 0xC0#8, 0x7F#8] =
      some [(0x7FC00000#128, some (.pattern 0x7FC00000#32))] := by decide
theorem test_text16 :
    fieldOf (.text16 0x1000#16) [0x4A#8, 0x4B#8, 0x2D#8, 0x42#8, 0x32#8, 0x41#8, 0x38#8, 0x53#8, 0x32#8, 0x30#8,
        0x50#8, 0#8, 0#8, 0#8, 0#8, 0#8] =
      some [(0x50303253384132422D4B4A#128, some (.text [0x4A#8, 0x4B#8, 0x2D#8, 0x42#8, 0x32#8, 0x41#8, 0x38#8,
        0x53#8, 0x32#8, 0x30#8, 0x50#8, 0#8, 0#8, 0#8, 0#8, 0#8, 0#8]))] := by decide
theorem test_text8 :
    fieldOf (.text8 0x1000#16) [0x00#8, 0x01#8, 0x02#8, 0x03#8, 0x04#8, 0x05#8, 0x06#8, 0x07#8] =
      some [(0x0706050403020100#128,
        some (.text [0x00#8, 0x01#8, 0x02#8, 0x03#8, 0x04#8, 0x05#8, 0x06#8, 0x07#8, 0x00#8]))] := by decide

/-- Vector B3: a field that starts inside the data and ends beyond it. -/
theorem test_row_incomplete :
    ended (exec (.u32 0x1004#16) (decodingState [0x10#8, 0x11#8, 0x12#8, 0x13#8, 0x14#8])) =
      some ([⟨5#4, 0#16⟩], 0x20#8) := by decide

/-- Vectors B4 and B5 on the source's whole-catalogue operation. -/
theorem test_decodeGroup :
    (decodeGroup 0x1000#16 [0x10#8, 0x11#8, 0x12#8, 0x13#8, 0x14#8, 0x15#8, 0x16#8] 0
        [0x00001000#32, 0x00041004#32, 0x00001002#32]).2 = some 1 ∧
      ((decodeGroup 0x1000#16 [0x10#8, 0x11#8, 0x12#8, 0x13#8, 0x14#8, 0x15#8, 0x16#8, 0x17#8] 0
        [0x00001000#32, 0x00041004#32, 0x00001002#32]).1.map FieldRecord.val) =
        [0x10#128, 0x17161514#128, 0x12#128] := by decide

/-! ### Sections 7 and 8: STAT, illegal words, reset -/

theorem test_stat_flags :
    ended (exec .stat (locatedState [0x64#8])) = some ([⟨0#4, 0x0700#16⟩], 0x00#8) := by decide
theorem test_stat_errs :
    ended (exec .stat { State.reset with errs := 0x04#8 }) = some ([⟨0#4, 0x0004#16⟩], 0x04#8) := by decide

/-- The illegal words of R233 and section 7, each as the first word of CMD after reset. -/
theorem test_illegal_words :
    [0x00000000#32, 0x00000005#32, 0x000000FF#32, 0x00000101#32, 0x00010001#32, 0x00010002#32, 0x00000110#32,
      0x00000012#32, 0x00010112#32, 0x00000013#32, 0x00010011#32, 0x00040001#32, 0x80000003#32,
      0x00001010#32].map (fun w => ended (step { State.reset with cmd := [w] })) =
      List.replicate 14 (some ([⟨6#4, 0#16⟩], 0x40#8)) := by decide

theorem test_reset_abandons :
    after (step (assertReset (decodingState [0x64#8]))) (fun t => (t.run, t.len, t.cpl)) =
      some (.idle, 0#16, []) := by decide

/-- R280: released reset leaves the reset state, also with no step since it was asserted. -/
theorem test_release_resets :
    let t := releaseReset (assertReset (decodingState [0x64#8]))
    t.rst = false ∧ t.run = .idle ∧ t.crc = 0xFFFF#16 ∧ t.len = 0#16 ∧ t.pv = false ∧ t.mem = [] := by decide

/-! ### Fetching the host's word; packed records; the notation -/

theorem test_fetch_command :
    ended (step (State.reset.withFetchWord 32 0x00000102)) = some ([⟨0#4, 0x807E#16⟩], 0x00#8) := by decide
theorem test_fetch_row :
    ended (step (State.reset.withFetchWord 32 0x00041000)) = some ([⟨5#4, 0#16⟩], 0x20#8) := by decide
theorem test_pack :
    Completion.pack ⟨2#4, 0x1372#16⟩ = 0x13722#20 ∧
      FieldRecord.pack ⟨0x0009#16, 7#4, 0x000A#16, 0x4B4A#128⟩ = 0x4B4A000A70009#164 := by decide
theorem test_run_after_fatal : nextOfRun 16#8 [2#4] = none := by decide
theorem test_run_after_short : nextOfRun 1#8 [0#4, 3#4] = some (.req 1#8 2#2) := by decide
theorem test_run_ends_with_stat :
    nextOfRun 1#8 [0#4, 3#4, 0#4, 0#4, 4#4, 0#4, 0#4, 0#4, 5#4] = some .stat := by decide

/-! ### Witnesses: states and operands that meet the hypotheses of the statements -/

/-- The state of vectors A4 and T1: seven bytes captured, group 1 located, payload 64. -/
def located1 : State := locatedState [0x64#8]

/-- Catalogue row `{0x1000, U8}` under a DEC 1 over the payload 64. -/
def running1 : State := { decodingState [0x64#8] with cfg := { Params.default with catalog := [0x00001000#32] } }

/-- The invariant holds in a state with a located frame and a running DEC. -/
theorem witness_inv : Inv running1 where
  params := by decide
  canonical := by decide
  inBuffer := by decide
  captured := by decide
  lenCap := by decide
  cvLen := by decide
  pvCv := by decide
  pvRange := by decide
  pvFrame := fun _ => ⟨.g1, head1, by decide, by decide, by decide, by decide⟩
  cidxRange := by decide
  errsBit0 := by decide
  errsBit1 := by decide
  running := ⟨rfl, rfl, by decide⟩

theorem witness_ResetInputActs : (assertReset State.reset).rst = true := rfl
theorem witness_ResetSatisfiesInv : ∃ s, instantiate { Params.default with catalog := catalogX } = some s :=
  ⟨_, rfl⟩
theorem witness_StepKeepsInv : Inv running1 ∧ ∃ t, step running1 = .next t ∧ t.fld.length = 1 :=
  ⟨witness_inv, _, rfl, by decide⟩
theorem witness_StepNeverStops : Inv running1 := witness_inv
theorem witness_StepRunsDecodedCommand :
    let s : State := { State.reset with cmd := [0x00000003#32] }
    s.rst = false ∧ s.run = .idle ∧ s.cmd = 0x00000003#32 :: [] ∧ decodeCommand 0x00000003#32 = .ok .crcr := by decide
theorem witness_StepRunsDecodedRow :
    running1.rst = false ∧ running1.run = .decoding .g1 0#16 ∧
      running1.cfg.catalog[running1.cidx.toNat]? = some 0x00001000#32 ∧
      decodeDescriptor 0x00001000#32 = .ok (.u8 0x1000#16) := by decide
theorem witness_StepWaitsForCommand :
    State.reset.rst = false ∧ State.reset.run = .idle ∧ State.reset.cmd = [] := by decide
theorem witness_DecodeOfEncode : Instr.crci.isCommand = true ∧ (Instr.text8 0x1204#16).isCommand = false := by decide
theorem witness_EncodeOfDecode :
    decodeCommand 0x00000003#32 = .ok .crcr ∧ decodeDescriptor 0x0000100C#32 = .ok (.u8 0x100C#16) := by decide
theorem witness_LegalWordsDecode : LegalCommandWord 0x00010110#32 ∧ ¬ LegalCommandWord 0x00000110#32 := by
  unfold LegalCommandWord; decide
theorem witness_IllegalWordRaises :
    let s : State := { State.reset with cmd := [0x00000000#32] }
    s.rst = false ∧ s.run = .idle ∧ s.cmd = 0x00000000#32 :: [] ∧ ¬ LegalCommandWord 0x00000000#32 := by
  unfold LegalCommandWord; decide
theorem witness_GroupZeroRaisesIllegal_req :
    (∃ a, Instr.req 16#8 0#2 = .req a 0#2) ∨ Instr.req 16#8 0#2 = .loc 0#2 ∨ Instr.req 16#8 0#2 = .dec 0#2 :=
  .inl ⟨16#8, rfl⟩
theorem witness_GroupZeroRaisesIllegal_loc :
    (∃ a, Instr.loc 0#2 = .req a 0#2) ∨ Instr.loc 0#2 = .loc 0#2 ∨ Instr.loc 0#2 = .dec 0#2 := .inr (.inl rfl)
theorem witness_GroupZeroRaisesIllegal_dec :
    (∃ a, Instr.dec 0#2 = .req a 0#2) ∨ Instr.dec 0#2 = .loc 0#2 ∨ Instr.dec 0#2 = .dec 0#2 := .inr (.inr rfl)
theorem witness_CrcbResult :
    (0xFFFE#16 : Half) = State.reset.crc ^^^ (0x01#8).setWidth 16 ∧
      (0x807E#16 : Half) = (0xFFFE#16 >>> 8) ^^^ crcTable.getD ((0xFFFE#16 : Half).toNat % 256) 0#16 := by decide
theorem witness_CrcOfSpan :
    let s : State := { State.reset with cmd := [0x00000001#32, 0x00000102#32, 0x00000003#32] }
    s.rst = false ∧ s.run = .idle ∧
      s.cmd = encode .crci :: ([0x01#8].map fun b => encode (.crcb b)) ++ encode .crcr :: [] := by decide

/-- The first and the last address REQ accepts, with their frames of section 3. -/
theorem witness_ReqSendsFrame :
    (1 ≤ (1#8 : Byte).toNat ∧ (1#8 : Byte).toNat ≤ 15 ∧
      0x1372#16 = crc16 [1#8, 0x10#8, 0x16#8, 0x1E#8, 0#8, 0#8, 0#8, 0#8, 0#8] ∧
      #v[1#8, 0x10#8, 0x16#8, 0x1E#8, 0#8, 0#8, 0#8, 0#8, 0#8, 0x72#8, 0x13#8].toList =
        [1#8, 0x10#8, 0x16#8, 0x1E#8, 0#8, 0#8, 0#8, 0#8, 0#8, (0x1372#16 : Half).extractLsb' 0 8,
          (0x1372#16 : Half).extractLsb' 8 8]) ∧
    (1 ≤ (15#8 : Byte).toNat ∧ (15#8 : Byte).toNat ≤ 15 ∧
      0x913F#16 = crc16 [15#8, 0x10#8, 0x16#8, 0x1C#8, 0#8, 0#8, 0#8, 0#8, 0#8] ∧
      #v[15#8, 0x10#8, 0x16#8, 0x1C#8, 0#8, 0#8, 0#8, 0#8, 0#8, 0x3F#8, 0x91#8].toList =
        [15#8, 0x10#8, 0x16#8, 0x1C#8, 0#8, 0#8, 0#8, 0#8, 0#8, (0x913F#16 : Half).extractLsb' 0 8,
          (0x913F#16 : Half).extractLsb' 8 8]) := by decide
theorem witness_ReqRejectsAddress :
    ((0#8 : Byte).toNat = 0 ∨ 15 < (0#8 : Byte).toNat) ∧ ((16#8 : Byte).toNat = 0 ∨ 15 < (16#8 : Byte).toNat) ∧
      (1 ≤ (1#8 : Byte).toNat ∧ (1#8 : Byte).toNat ≤ 15) ∧ 1 ≤ (15#8 : Byte).toNat ∧ (15#8 : Byte).toNat ≤ 15 := by
  decide
theorem witness_SentBytesAreFrames :
    ∃ t, step { State.reset with cmd := [0x00010110#32] } = .next t ∧ t.tx.length = 11 := ⟨_, rfl, by decide⟩
theorem witness_CapUntilQuiet :
    let s : State := { State.reset with rx := (head1.map .byte) ++ [.quiet] }
    s.rx = head1.map .byte ++ .quiet :: [] ∧ 6 ≤ head1.length ∧ head1.length < s.cfg.bufCap ∧
      s.cfg.bufCap ≤ 65535 := by decide
theorem witness_CapUntilFull :
    let s : State := { State.reset with cfg := { Params.default with bufCap := 6 }, rx := (head1.map .byte) ++ [.quiet] }
    s.rx = head1.map .byte ++ [.quiet] ∧ head1.length = s.cfg.bufCap ∧ 6 ≤ s.cfg.bufCap ∧ s.cfg.bufCap ≤ 65535 := by
  decide
theorem witness_CapShortResponse :
    let s : State := { State.reset with rx := ((head1.take 5).map .byte) ++ [.quiet] }
    s.rx = (head1.take 5).map .byte ++ .quiet :: [] ∧ (head1.take 5).length < 6 ∧ 6 ≤ s.cfg.bufCap := by decide
theorem witness_CapWaitsForToken :
    let s : State := { State.reset with cfg := { Params.default with bufCap := 6 }, rx := (head1.take 5).map .byte }
    let w : State := { State.reset with run := .capturing }
    (s.rx = (head1.take 5).map .byte ∧ (head1.take 5).length < s.cfg.bufCap ∧ s.cfg.bufCap ≤ 65535) ∧
      w.rst = false ∧ w.run = .capturing ∧ w.rx = [] ∧ w.len.toNat < w.cfg.bufCap := by decide

/-- A CAP that waits after one byte, and one that ends at once on a Quiet. -/
theorem witness_CapIgnoresArrivalTime :
    (∃ t, exec .cap { State.reset with rx := [.byte 0x55#8] } = .next t ∧ t.run = .capturing) ∧
      ∃ t, exec .cap { State.reset with rx := [.quiet] } = .next t ∧ t.run ≠ .capturing :=
  ⟨⟨_, rfl, by decide⟩, ⟨_, rfl, by decide⟩⟩

theorem witness_frameStands : FrameStands 1#16 (head1 ++ [0x64#8]) 0 := by unfold FrameStands; decide

/-- The smallest findable frame: one payload byte. -/
theorem witness_LocFindsFirstFrame :
    located1.cv = true ∧ readBytes located1.mem 0 located1.len.toNat = .ok (head1 ++ [0x64#8]) ∧
      FrameStands (groupRecord located1.cfg .g1).gid (head1 ++ [0x64#8]) 0 ∧
      ∀ q, q < 0 → ¬ FrameStands (groupRecord located1.cfg .g1).gid (head1 ++ [0x64#8]) q :=
  ⟨rfl, by decide, witness_frameStands, fun q h => absurd h (Nat.not_lt_zero q)⟩

/-- A capture of exactly six bytes (R185 (a)). -/
theorem witness_LocFindsNothing :
    (capturedState head1).cv = true ∧
      readBytes (capturedState head1).mem 0 (capturedState head1).len.toNat = .ok head1 ∧
      ∀ q, ¬ FrameStands (groupRecord (capturedState head1).cfg .g1).gid head1 q :=
  ⟨rfl, by decide, fun q h => by have := h.1; simp [head1] at this⟩

theorem witness_LocOutOfSequence : State.reset.cv = false := rfl

/-- One noise byte, then a frame of group 1 (vector L1). -/
theorem witness_LocSkipsGarbage :
    let s := capturedState ([0x00#8] ++ head1 ++ [0x64#8])
    s.cv = true ∧ (1#16 : Half) = (groupRecord s.cfg .g1).gid ∧ [0x64#8] ≠ [] ∧
      [0x00#8] ++ head1 ++ [0x64#8] =
        [0x00#8] ++ [0x55#8, 0xAA#8, 0xEB#8, 0x90#8, (1#16 : Half).extractLsb' 0 8, (1#16 : Half).extractLsb' 8 8] ++
          [0x64#8] ∧
      readBytes s.mem 0 s.len.toNat = .ok ([0x00#8] ++ head1 ++ [0x64#8]) ∧
      ∀ q, q < [0x00#8].length → ¬ FrameStands 1#16 ([0x00#8] ++ head1 ++ [0x64#8]) q := by
  unfold FrameStands; decide

theorem witness_DecStarts : located1.pv = true ∧ located1.pg = groupBits .g1 := by decide
theorem witness_DecOutOfSequence :
    (State.reset.pv = false ∨ State.reset.pg ≠ groupBits .g1) ∧
      (located1.pv = false ∨ located1.pg ≠ groupBits .g2) := by decide

/-- The hypotheses of a row statement for a type of `w` bytes. -/
abbrev RowHypotheses (w : Nat) (s : State) (g : Group) (n addr : Half) (m : List Byte) (base roff : Nat) : Prop :=
  s.run = .decoding g n ∧ base = (groupRecord s.cfg g).base.toNat ∧ addr.toNat = base + roff ∧ roff < 0x200 ∧
    roff + w ≤ s.len.toNat - s.poff.toNat ∧ m.length = w ∧
    ∀ k, k < w → Memory.read? s.mem (s.poff.toNat + roff + k) = m[k]?

/-- A DEC 1 whose captured bytes end with these bytes at offset 0x1FF, the last of the window. -/
def lastInWindow (m : List Byte) : State :=
  { State.reset with
    mem := cellsFrom 0x205 m, len := BitVec.ofNat 16 (0x205 + m.length), poff := 6#16, run := .decoding .g1 0#16 }

theorem witness_ExtractGivesFieldValues : [0x9C#8].length = 1 ∧ [0x34#8, 0x12#8].length = 2 := by decide
theorem witness_RowU8 :
    RowHypotheses 1 (decodingState [0x9C#8]) .g1 0#16 0x1000#16 [0x9C#8] 0x1000 0 ∧
      RowHypotheses 1 (lastInWindow [0x9C#8]) .g1 0#16 0x11FF#16 [0x9C#8] 0x1000 0x1FF := by decide
theorem witness_RowI8 :
    RowHypotheses 1 (decodingState [0x80#8]) .g1 0#16 0x1000#16 [0x80#8] 0x1000 0 ∧
      RowHypotheses 1 (lastInWindow [0x80#8]) .g1 0#16 0x11FF#16 [0x80#8] 0x1000 0x1FF := by decide
theorem witness_RowU16 :
    RowHypotheses 2 (decodingState [0x34#8, 0x12#8]) .g1 0#16 0x1000#16 [0x34#8, 0x12#8] 0x1000 0 ∧
      RowHypotheses 2 (lastInWindow [0x34#8, 0x12#8]) .g1 0#16 0x11FF#16 [0x34#8, 0x12#8] 0x1000 0x1FF := by decide
theorem witness_RowI16 :
    RowHypotheses 2 (decodingState [0x18#8, 0xFC#8]) .g1 0#16 0x1000#16 [0x18#8, 0xFC#8] 0x1000 0 ∧
      RowHypotheses 2 (lastInWindow [0x18#8, 0xFC#8]) .g1 0#16 0x11FF#16 [0x18#8, 0xFC#8] 0x1000 0x1FF := by decide

/-- Four bytes for U32, I32 and F32. -/
def four : List Byte := [0x78#8, 0x56#8, 0x34#8, 0x12#8]

theorem witness_RowU32 :
    RowHypotheses 4 (decodingState four) .g1 0#16 0x1000#16 four 0x1000 0 ∧
      RowHypotheses 4 (lastInWindow four) .g1 0#16 0x11FF#16 four 0x1000 0x1FF := by decide
theorem witness_RowI32 : RowHypotheses 4 (decodingState four) .g1 0#16 0x1000#16 four 0x1000 0 := by decide
theorem witness_RowF32 : RowHypotheses 4 (decodingState four) .g1 0#16 0x1000#16 four 0x1000 0 := by decide
theorem witness_RowText16 :
    RowHypotheses 16 (decodingState (four ++ four ++ four ++ four)) .g1 0#16 0x1000#16 (four ++ four ++ four ++ four)
        0x1000 0 ∧
      RowHypotheses 16 (lastInWindow (four ++ four ++ four ++ four)) .g1 0#16 0x11FF#16
        (four ++ four ++ four ++ four) 0x1000 0x1FF := by decide
theorem witness_RowText8 :
    RowHypotheses 8 (decodingState (four ++ four)) .g1 0#16 0x1000#16 (four ++ four) 0x1000 0 ∧
      RowHypotheses 8 (lastInWindow (four ++ four)) .g1 0#16 0x11FF#16 (four ++ four) 0x1000 0x1FF := by decide

/-- The addresses just below and just above group 1's window. -/
theorem witness_RowOutsideWindowSkipped :
    running1.run = .decoding .g1 0#16 ∧
      ((0x0FFF#16 : Half).toNat < (groupRecord running1.cfg .g1).base.toNat ∨
        (groupRecord running1.cfg .g1).base.toNat + 0x200 ≤ (0x0FFF#16 : Half).toNat) ∧
      ((0x1200#16 : Half).toNat < (groupRecord running1.cfg .g1).base.toNat ∨
        (groupRecord running1.cfg .g1).base.toNat + 0x200 ≤ (0x1200#16 : Half).toNat) := by decide

/-- One byte short (the boundary of R198), in the first and the last position of the window. -/
theorem witness_RowIncompleteData :
    running1.run = .decoding .g1 0#16 ∧ 0x1000 = (groupRecord running1.cfg .g1).base.toNat ∧
      ((0x1000#16 : Half).toNat = 0x1000 + 0 ∧ 0 < 0x200 ∧ running1.len.toNat - running1.poff.toNat < 0 + 2) ∧
      ((0x11FF#16 : Half).toNat = 0x1000 + 0x1FF ∧ 0x1FF < 0x200 ∧
        running1.len.toNat - running1.poff.toNat < 0x1FF + 1) := by decide
theorem witness_DecEndsAfterLastRow :
    let s : State := { running1 with cidx := 1#16 }
    s.rst = false ∧ s.run = .decoding .g1 0#16 ∧ s.cfg.nDesc ≤ s.cidx.toNat := by decide
theorem witness_DecRefinesDecodeGroup :
    let s : State := { running1 with run := .idle }
    s.rst = false ∧ s.cfg.wellFormed = true ∧ s.pv = true ∧ s.pg = groupBits .g1 ∧
      readBytes s.mem s.poff.toNat (s.len.toNat - s.poff.toNat) = .ok [0x64#8] := by decide

/-- A step of each kind the statements about every step speak of. -/
theorem witness_StreamsKeepOrder : ∃ t, step running1 = .next t := ⟨_, rfl⟩
theorem witness_OneCompletionPerCommand :
    running1.rst = false ∧ (∃ t, step running1 = .next t ∧ t.run ≠ .idle) ∧
      ∃ t, step { State.reset with cmd := [0x00000003#32] } = .next t ∧ t.cpl.length = 1 :=
  ⟨rfl, ⟨_, rfl, by decide⟩, _, rfl, by decide⟩
theorem witness_ErrsIsSticky :
    let s : State := { State.reset with errs := 0x04#8, cmd := [0x00000000#32] }
    s.rst = false ∧ s.errs.getLsbD 2 = true ∧ ∃ t, step s = .next t := ⟨rfl, rfl, _, rfl⟩
theorem witness_ParametersNeverChange : ∃ t, step running1 = .next t := ⟨_, rfl⟩
theorem witness_OnlyCrcCommandsWriteCrc :
    let s : State := { State.reset with cmd := [0x00000102#32] }
    s.rst = false ∧ ∃ t, step s = .next t ∧ t.crc ≠ s.crc := ⟨rfl, _, rfl, by decide⟩
theorem witness_OnlyCapWritesBuffer :
    let s : State := { State.reset with cmd := [0x00000011#32], rx := [.byte 0x55#8] }
    s.rst = false ∧ ∃ t, step s = .next t ∧ t.mem ≠ s.mem := ⟨rfl, _, rfl, by decide⟩

/-- A stale byte at index 7, past the seven captured ones. -/
theorem witness_BytesBeyondLenAreNotRead :
    (∀ a, a < running1.len.toNat →
      Memory.read? (running1.mem ++ [(7, 0xEE#8)]) a = Memory.read? running1.mem a) ∧
      ∃ t, step running1 = .next t :=
  ⟨show ∀ a, a < 7 → _ from by decide, _, rfl⟩
theorem witness_RunningCommandIsAlone :
    running1.rst = false ∧ running1.run = .decoding .g1 0#16 ∧ (∃ t, step running1 = .next t) ∧
      ∃ t, step { State.reset with run := .capturing, rx := [.byte 0x55#8] } = .next t :=
  ⟨rfl, rfl, ⟨_, rfl⟩, _, rfl⟩

/-- The smallest and the largest buffer the spec allows, and one beside each bound. -/
theorem witness_OnlyAllowedParametersInstantiate :
    AllowedParams { Params.default with bufCap := 6 } ∧ AllowedParams { Params.default with bufCap := 65535 } ∧
      ¬ AllowedParams { Params.default with bufCap := 5 } ∧ ¬ AllowedParams { Params.default with bufCap := 65536 } := by
  simp [AllowedParams, Params.default]
theorem witness_RowRefusals :
    (State.reset.run = .idle ∨ State.reset.run = .capturing) ∧
      let s : State := { running1 with cfg := { Params.default with catalog := [0x00091000#32] } }
      s.rst = false ∧ s.run = .decoding .g1 0#16 ∧ s.cfg.catalog[s.cidx.toNat]? = some 0x00091000#32 ∧
        (8 < ((0x00091000#32 : Word).extractLsb' 16 4).toNat ∨ (0x00091000#32 : Word).extractLsb' 20 12 ≠ 0#12) := by
  decide

/-- A row at the window's first address whose byte is missing, and a scan whose sixth byte is. -/
theorem witness_MissingByteFaults :
    (let s : State := { running1 with mem := [] }
     s.run = .decoding .g1 0#16 ∧ 0x1000 = (groupRecord s.cfg .g1).base.toNat ∧
       (0x1000#16 : Half).toNat = 0x1000 + 0 ∧ 0 < 0x200 ∧ 0 + rowWidth .u8 ≤ s.len.toNat - s.poff.toNat ∧
       0 < rowWidth .u8 ∧ Memory.read? s.mem (s.poff.toNat + 0 + 0) = none ∧
       ∀ j, j < 0 → (Memory.read? s.mem (s.poff.toNat + 0 + j)).isSome = true) ∧
    (let s : State := { located1 with mem := cellsFrom 0 (head1.take 5) }
     s.cv = true ∧ 6 < s.len.toNat ∧ 5 < 6 ∧ Memory.read? s.mem 5 = none ∧
       ∀ j, j < 5 → (Memory.read? s.mem j).isSome = true) := by decide

/-- R253: inside a command tokens may come, words may not; between commands both may. -/
theorem test_events_inside_command :
    eventsAllowed (decodingState [0x64#8]) [.deliver [.quiet]] = true ∧
      eventsAllowed (decodingState [0x64#8]) [.deliver [.quiet], .issue [0x00000004#32]] = false ∧
      eventsAllowed State.reset [.issue [0x00000004#32], .deliver [.quiet]] = true := by decide

/-! ### The hypotheses of the laws about endless runs -/

/-- A CAP that waits, and gets a Quiet before the first step. -/
def waitingState : State := { State.reset with run := .capturing }

/-- One Quiet, then nothing. -/
def oneQuiet (k : Nat) : List PortEvent := if k = 0 then [.deliver [.quiet]] else []

/-- The run of a waiting CAP that gets one Quiet. -/
def shortRun (k : Nat) : State :=
  if k = 0 then waitingState
  else { State.reset with errs := 0x08#8, cpl := [⟨3#4, 0#16⟩] }

theorem witness_capture_ends :
    IsRun oneQuiet shortRun ∧ FairRx oneQuiet shortRun ∧ (shortRun 0).cfg.bufCap ≤ 65535 ∧
      NoResetFrom oneQuiet shortRun 0 ∧ WaitsForToken (shortRun 0) := by
  refine ⟨fun k => ?_, fun k hw => ?_, by decide, ⟨rfl, fun j _ => ?_⟩, by unfold WaitsForToken; decide⟩
  · cases k <;> exact ⟨rfl, rfl⟩
  · cases k with
    | zero => exact ⟨0, Nat.le_refl 0, .inl ⟨[.quiet], by simp, by simp [oneQuiet]⟩⟩
    | succ k => exact absurd hw.1 (by simp [shortRun, State.reset, State.resetWith])
  · cases j <;> simp [oneQuiet]

/-- A CAP to which nothing is ever delivered. -/
theorem witness_capture_starves :
    IsRun (fun _ => []) (fun _ => waitingState) ∧ WaitsForToken waitingState ∧
      NoResetFrom (fun _ => []) (fun _ => waitingState) 0 ∧ ∀ j, 0 ≤ j → ¬ DeliversToken ((fun _ => []) j) :=
  ⟨fun _ => ⟨rfl, rfl⟩, by unfold WaitsForToken; decide, ⟨rfl, fun _ _ => by simp⟩, fun _ _ => by simp [DeliversToken]⟩

end Sys2Proof.Tests
end

section
/-! SUPPORT. The proofs about the scope of the unit (spec 00_scope.md): what a whole DEC does, what is sent, what a
running command leaves alone, the reset state, the parameters, and what is refused. -/

namespace Sys2Proof.Machine

/-! ### One step of each kind -/

/-- A step of a running CAP goes on with its loop (R166). -/
theorem step_of_capturing (s : State) (hr : s.rst = false) (hrun : s.run = .capturing) : step s = runCapture s := by
  simp [step, hr, hrun]

section Decoding

variable {s : State} {g : Group} {n : Half}

/-- Past the last row a step of a running DEC completes it (R202). -/
theorem step_of_noRow (hr : s.rst = false) (hrun : s.run = .decoding g n)
    (hc : s.cfg.catalog[s.cidx.toNat]? = none) : step s = .next (complete n s) := by
  simp [step, hr, hrun, fetchRow, hc]

/-- At a row that decodes, a step of a running DEC interprets it (R196). -/
theorem step_of_row {d : Word} {t : TypeTag} {addr : Half} (hr : s.rst = false) (hrun : s.run = .decoding g n)
    (hc : s.cfg.catalog[s.cidx.toNat]? = some d) (hd : decodeDescriptor d = .ok (Instr.ofRow t addr)) :
    step s = interpretRow t addr s := by
  simp [step, hr, hrun, fetchRow, hc, hd]

/-- At a row that does not decode, a step of a running DEC refuses it (log entry 1). -/
theorem step_of_badRow {d : Word} {e : DecodeError} (hr : s.rst = false) (hrun : s.run = .decoding g n)
    (hc : s.cfg.catalog[s.cidx.toNat]? = some d) (hd : decodeDescriptor d = .error e) :
    step s = .refused (.illFormedDescriptor d) := by
  simp [step, hr, hrun, fetchRow, hc, hd]

/-- A row outside the window is skipped (R197). -/
theorem interpretRow_outside {t : TypeTag} {addr : Half} (hrun : s.run = .decoding g n)
    (hw : inWindow (groupRecord s.cfg g).base addr = false) : interpretRow t addr s = .next (skipRow s) := by
  simp [interpretRow, hrun, hw]

/-- A row in the window that does not fit raises IncompleteData (R198, R200). -/
theorem interpretRow_short {t : TypeTag} {addr : Half} (hrun : s.run = .decoding g n)
    (hw : inWindow (groupRecord s.cfg g).base addr = true)
    (hf : avail s < (addr - (groupRecord s.cfg g).base).toNat + rowWidth t) :
    interpretRow t addr s = .next (raise .incompleteData n s) := by
  simp only [interpretRow, hrun, hw, if_true, if_neg (Nat.not_le.2 hf)]

/-- A row in the window that fits, over bytes that can be read, emits its record (R199). -/
theorem interpretRow_fits {t : TypeTag} {addr : Half} {m : List Byte} (hrun : s.run = .decoding g n)
    (hw : inWindow (groupRecord s.cfg g).base addr = true)
    (hf : (addr - (groupRecord s.cfg g).base).toNat + rowWidth t ≤ avail s)
    (hm : memRead s (s.poff.toNat + (addr - (groupRecord s.cfg g).base).toNat) (rowWidth t) = .ok m) :
    interpretRow t addr s =
      .next (emitRow g n ⟨s.cidx, t.code, addr - (groupRecord s.cfg g).base, extract t m⟩ s) := by
  simp only [interpretRow, hrun, hw, if_true, if_pos hf, hm]

/-- Outside a DEC a row is refused (R2, log entry 10). -/
theorem interpretRow_refused (t : TypeTag) (addr : Half) (h : s.run = .idle ∨ s.run = .capturing) :
    interpretRow t addr s = .refused .rowOutsideDec := by
  rcases h with h | h <;> simp [interpretRow, h]

/-- The four things a step of a running DEC can do (R197 to R202). -/
theorem step_of_decoding {t : State} (hr : s.rst = false) (hrun : s.run = .decoding g n) (h : step s = .next t) :
    t = complete n s ∨ t = skipRow s ∨ t = raise .incompleteData n s ∨ ∃ r, t = emitRow g n r s := by
  cases hc : s.cfg.catalog[s.cidx.toNat]? with
  | none =>
    rw [step_of_noRow hr hrun hc] at h
    cases h; exact .inl rfl
  | some d =>
    cases hd : decodeDescriptor d with
    | error e => rw [step_of_badRow hr hrun hc hd] at h; cases h
    | ok i =>
      obtain ⟨ty, -, -, rfl⟩ := decodeDescriptor_ok d i hd
      rw [step_of_row hr hrun hc hd] at h
      obtain ⟨g', n', hrun', hrow⟩ := interpretRow_cases _ _ _ _ h
      obtain ⟨rfl, rfl⟩ : g = g' ∧ n = n' := by simpa [hrun] using hrun'
      rcases hrow with ⟨-, ht⟩ | ⟨-, -, ht⟩ | ⟨-, -, m, -, ht⟩
      · exact .inr (.inl ht)
      · exact .inr (.inr (.inl ht))
      · exact .inr (.inr (.inr ⟨_, ht⟩))

end Decoding

/-! ### The rows of decodeGroup -/

section DecodeGroup

variable {base : Half} {payload : List Byte} {d : Word} {t : TypeTag}

theorem decodeGroup_nil (base : Half) (payload : List Byte) (idx : Nat) :
    decodeGroup base payload idx [] = ([], none) := rfl

/-- A row outside the window is passed over (R197). -/
theorem decodeGroup_outside (idx : Nat) (rows : List Word) (ht : tagOfCode (rowTagOf d) = some t)
    (hw : inWindow base (rowAddrOf d) = false) :
    decodeGroup base payload idx (d :: rows) = decodeGroup base payload (idx + 1) rows := by
  simp [decodeGroup, ht, hw]

/-- A row in the window that does not fit ends the decoding (R198). -/
theorem decodeGroup_short (idx : Nat) (rows : List Word) (ht : tagOfCode (rowTagOf d) = some t)
    (hw : inWindow base (rowAddrOf d) = true) (hf : payload.length < (rowAddrOf d - base).toNat + rowWidth t) :
    decodeGroup base payload idx (d :: rows) = ([], some idx) := by
  simp only [decodeGroup, ht, hw, if_true, if_neg (Nat.not_le.2 hf)]

/-- The record of row `d`, of type `t`, at index `cidx` over these payload bytes (R199). -/
def rowRecord (base : Half) (payload : List Byte) (d : Word) (t : TypeTag) (cidx : Half) : FieldRecord :=
  ⟨cidx, t.code, rowAddrOf d - base, extract t ((payload.drop (rowAddrOf d - base).toNat).take (rowWidth t))⟩

/-- A row in the window that fits puts its record in front (R199). -/
theorem decodeGroup_fits (idx : Nat) (rows : List Word) (ht : tagOfCode (rowTagOf d) = some t)
    (hw : inWindow base (rowAddrOf d) = true) (hf : (rowAddrOf d - base).toNat + rowWidth t ≤ payload.length) :
    decodeGroup base payload idx (d :: rows) =
      (rowRecord base payload d t (BitVec.ofNat 16 idx) :: (decodeGroup base payload (idx + 1) rows).1,
        (decodeGroup base payload (idx + 1) rows).2) := by
  simp only [decodeGroup, rowRecord, ht, hw, if_true, if_pos hf]

end DecodeGroup

theorem rowWidth_pos (t : TypeTag) : 0 < rowWidth t := by cases t <;> decide

/-! ### The end of a DEC that has already emitted records -/

/-- The state a DEC ends in when it has emitted `n` records so far and `out` is what `decodeGroup` gives for the rows
still to come: `decodedState` for a DEC on its way (`decodedFrom_zero`). -/
def decodedFrom (n : Half) (s : State) (out : List FieldRecord × Option Nat) : State :=
  match out.2 with
  | none => complete (n + BitVec.ofNat 16 out.1.length)
      { s with cidx := BitVec.ofNat 16 s.cfg.nDesc, fld := s.fld ++ out.1 }
  | some row => raise .incompleteData (n + BitVec.ofNat 16 out.1.length)
      { s with cidx := BitVec.ofNat 16 row, fld := s.fld ++ out.1 }

/-- Before the first row this is `decodedState`. -/
theorem decodedFrom_zero (s : State) (c : Half) (r : Run) (out : List FieldRecord × Option Nat) :
    decodedFrom 0#16 { s with cidx := c, run := r } out = decodedState s out := by
  obtain ⟨recs, stop⟩ := out
  cases stop with
  | none => simp [decodedFrom, decodedState, complete]
  | some row => simp [decodedFrom, decodedState, raise, setErrBit, ErrorKind.code]

/-- Skipping a row changes nothing the end shows. -/
theorem decodedFrom_skipRow (n : Half) (s : State) (out : List FieldRecord × Option Nat) :
    decodedFrom n (skipRow s) out = decodedFrom n s out := by
  obtain ⟨recs, stop⟩ := out
  cases stop <;> rfl

/-- A record emitted now stands in front of those still to come. -/
theorem decodedFrom_emitRow (g : Group) (n : Half) (s : State) (r : FieldRecord) (recs : List FieldRecord)
    (stop : Option Nat) :
    decodedFrom (n + 1#16) (emitRow g n r s) (recs, stop) = decodedFrom n s (r :: recs, stop) := by
  have hcount : n + 1#16 + BitVec.ofNat 16 recs.length = n + BitVec.ofNat 16 (r :: recs).length := by
    rw [List.length_cons, Nat.add_comm, BitVec.ofNat_add, BitVec.add_assoc]
  cases stop <;> simp [decodedFrom, hcount, emitRow, complete, raise]

/-! ### A DEC on its way -/

/-- In `s` a DEC of group `g` runs over these payload bytes, has emitted `n` records, and has the rows `rows` still to
interpret. -/
structure InterpretsRows (g : Group) (payload : List Byte) (n : Half) (rows : List Word) (s : State) : Prop where
  released   : s.rst = false
  running    : s.run = .decoding g n
  wellFormed : s.cfg.wellFormed = true
  position   : s.cidx.toNat ≤ s.cfg.nDesc
  rest       : s.cfg.catalog.drop s.cidx.toNat = rows
  readable   : readBytes s.mem s.poff.toNat (avail s) = .ok payload

section InterpretsRows

variable {g : Group} {payload : List Byte} {n : Half} {d : Word} {rows : List Word} {s : State}

/-- With no row to come `cidx` is N_DESC. -/
theorem InterpretsRows.cidx_of_nil (h : InterpretsRows g payload n [] s) : s.cidx.toNat = s.cfg.nDesc :=
  Nat.le_antisymm h.position (List.drop_eq_nil_iff.1 h.rest)

/-- The first row to come is the one `cidx` points to. -/
theorem InterpretsRows.fetch (h : InterpretsRows g payload n (d :: rows) s) :
    s.cfg.catalog[s.cidx.toNat]? = some d := by
  simpa [h.rest] using (List.getElem?_drop (xs := s.cfg.catalog) (i := s.cidx.toNat) (j := 0)).symm

/-- The payload bytes are the captured bytes from the payload offset on (R196). -/
theorem InterpretsRows.payload_length (h : InterpretsRows g payload n rows s) : payload.length = avail s :=
  ((readBytes_ok_iff _ _ _ _).1 h.readable).1

/-- While a row is to come `cidx` does not wrap. -/
theorem InterpretsRows.cidx_lt (h : InterpretsRows g payload n (d :: rows) s) : s.cidx.toNat < s.cfg.nDesc :=
  (List.getElem?_eq_some_iff.1 h.fetch).1

theorem InterpretsRows.cidx_succ (h : InterpretsRows g payload n (d :: rows) s) :
    (s.cidx + 1#16).toNat = s.cidx.toNat + 1 := by
  obtain ⟨-, -, hn, -⟩ := wellFormed_bounds _ h.wellFormed
  exact toNat_succ _ (Nat.lt_of_lt_of_le h.cidx_lt hn)

theorem InterpretsRows.drop_succ (h : InterpretsRows g payload n (d :: rows) s) :
    s.cfg.catalog.drop (s.cidx + 1#16).toNat = rows := by
  rw [h.cidx_succ, ← List.tail_drop, h.rest, List.tail_cons]

/-- The first row to come is well formed. -/
theorem InterpretsRows.row_ok (h : InterpretsRows g payload n (d :: rows) s) : descriptorOk d = true := by
  obtain ⟨-, -, -, hrows⟩ := wellFormed_bounds _ h.wellFormed
  exact hrows d (List.mem_of_getElem? h.fetch)

/-- The bytes of a field that fits are a part of the payload (R62, R198). -/
theorem InterpretsRows.memRead_payload (h : InterpretsRows g payload n rows s) {roff w : Nat} (hw : 0 < w)
    (hf : roff + w ≤ avail s) : memRead s (s.poff.toNat + roff) w = .ok ((payload.drop roff).take w) := by
  have hin : s.poff.toNat + roff + w ≤ s.len.toNat := by unfold avail at hf; omega
  rw [memRead_inside _ _ _ hin]
  exact readBytes_sub _ _ _ _ h.readable _ _ hf

theorem InterpretsRows.after_skipRow (h : InterpretsRows g payload n (d :: rows) s) :
    InterpretsRows g payload n rows (skipRow s) where
  released := h.released
  running := h.running
  wellFormed := h.wellFormed
  position := by rw [skipRow_cidx, h.cidx_succ]; exact h.cidx_lt
  rest := h.drop_succ
  readable := h.readable

theorem InterpretsRows.after_emitRow (h : InterpretsRows g payload n (d :: rows) s) (r : FieldRecord) :
    InterpretsRows g payload (n + 1#16) rows (emitRow g n r s) where
  released := h.released
  running := rfl
  wellFormed := h.wellFormed
  position := by rw [emitRow_cidx, h.cidx_succ]; exact h.cidx_lt
  rest := h.drop_succ
  readable := h.readable

end InterpretsRows

/-- A DEC on its way takes at most one step per row to come and one more to reach the end `decodeGroup` names: the
simulation, by induction on the rows to come. -/
theorem InterpretsRows.steps_decodedFrom {g : Group} {payload : List Byte} {n : Half} {rows : List Word} {s : State}
    (h : InterpretsRows g payload n rows s) :
    ∃ k, k ≤ rows.length + 1 ∧ steps k s =
      .next (decodedFrom n s (decodeGroup (groupRecord s.cfg g).base payload s.cidx.toNat rows)) := by
  induction rows generalizing n s with
  | nil =>
    have hnone : s.cfg.catalog[s.cidx.toNat]? = none := List.getElem?_eq_none (Nat.le_of_eq h.cidx_of_nil.symm)
    refine ⟨1, Nat.le_refl 1, ?_⟩
    rw [steps_one, step_of_noRow h.released h.running hnone, decodeGroup_nil]
    simp [decodedFrom, ← h.cidx_of_nil]
  | cons d rows ih =>
    obtain ⟨t, htag, hdec⟩ := decodeDescriptor_of_ok d h.row_ok
    have hstep := step_of_row h.released h.running h.fetch hdec
    cases hw : inWindow (groupRecord s.cfg g).base (rowAddrOf d) with
    | false =>
      obtain ⟨k, hk, hrun⟩ := ih h.after_skipRow
      refine ⟨k + 1, Nat.succ_le_succ hk, ?_⟩
      rw [steps_succ k s _ (hstep.trans (interpretRow_outside h.running hw)), hrun, decodedFrom_skipRow,
        decodeGroup_outside _ _ htag hw, skipRow_cidx, h.cidx_succ, skipRow_cfg]
    | true =>
      rcases Nat.lt_or_ge (avail s) ((rowAddrOf d - (groupRecord s.cfg g).base).toNat + rowWidth t) with hf | hf
      · refine ⟨1, Nat.le_add_left 1 _, ?_⟩
        rw [steps_one, hstep, interpretRow_short h.running hw hf,
          decodeGroup_short _ _ htag hw (h.payload_length ▸ hf)]
        simp [decodedFrom]
      · have hemit : interpretRow t (rowAddrOf d) s =
            .next (emitRow g n (rowRecord (groupRecord s.cfg g).base payload d t s.cidx) s) :=
          interpretRow_fits h.running hw hf (h.memRead_payload (rowWidth_pos t) hf)
        obtain ⟨k, hk, hrun⟩ := ih (h.after_emitRow (rowRecord (groupRecord s.cfg g).base payload d t s.cidx))
        refine ⟨k + 1, Nat.succ_le_succ hk, ?_⟩
        rw [steps_succ k s _ (hstep.trans hemit), hrun, decodedFrom_emitRow,
          decodeGroup_fits _ _ htag hw (h.payload_length ▸ hf), emitRow_cidx, h.cidx_succ, emitRow_cfg,
          BitVec.ofNat_toNat, BitVec.setWidth_eq]

/-- DEC of the located group starts the interpreter at row 0 (R196). -/
theorem exec_dec_starts {s : State} {g : Group} (hpv : s.pv = true) (hpg : s.pg = groupBits g) :
    exec (.dec (groupBits g)) s = .next { s with cidx := 0#16, run := .decoding g 0#16 } := by
  simp [exec, execDec, hpv, hpg]

/-- Settles O49: DEC starts the interpreter with every row to come, and `steps_decodedFrom` runs it to its end. -/
theorem decRefinesDecodeGroup : Obligations.DecRefinesDecodeGroup := by
  intro s g payload hr hwf hpv hpg hread
  have hstart : InterpretsRows g payload 0#16 s.cfg.catalog { s with cidx := 0#16, run := .decoding g 0#16 } :=
    { released := hr, running := rfl, wellFormed := hwf, position := Nat.zero_le _, rest := rfl, readable := hread }
  obtain ⟨k, hk, hrun⟩ := hstart.steps_decodedFrom
  refine ⟨_, k, exec_dec_starts hpv hpg, hk, ?_⟩
  rw [hrun, decodedFrom_zero]
  rfl

/-! ### What is sent -/

/-- A byte fed to a register whose low byte it is shifts the register down, since entry 0 of the table is zero. -/
theorem crcStep_lowByte (r : Half) : crcStep r (r.extractLsb' 0 8) = (r.extractLsb' 8 8).setWidth 16 := by
  have hlow : (r ^^^ (r.extractLsb' 0 8).setWidth 16).setWidth 8 = 0#8 := by
    apply BitVec.eq_of_getLsbD_eq; intro i hi
    simp [hi, show i < 16 by omega]
  have hhigh : (r ^^^ (r.extractLsb' 0 8).setWidth 16) >>> 8 = (r.extractLsb' 8 8).setWidth 16 := by
    apply BitVec.eq_of_getLsbD_eq; intro i hi
    by_cases h8 : i < 8
    · simp [h8, hi]
    · simp [h8, BitVec.getLsbD_of_ge r (8 + i) (by omega)]
  simp only [crcStep, hlow, hhigh, crct_zero, BitVec.xor_zero]

/-- Feeding a register its own two bytes, low byte first, leaves 0 (R138). -/
theorem crcFeed_ownBytes (r : Half) : crcFeed r [r.extractLsb' 0 8, r.extractLsb' 8 8] = 0#16 := by
  have hfst : ((r.extractLsb' 8 8).setWidth 16).extractLsb' 0 8 = r.extractLsb' 8 8 := by
    apply BitVec.eq_of_getLsbD_eq; intro i hi
    simp [hi, show i < 16 by omega]
  have hsnd : ((r.extractLsb' 8 8).setWidth 16).extractLsb' 8 8 = 0#8 := by
    apply BitVec.eq_of_getLsbD_eq; intro i hi
    simp
  have hstep := crcStep_lowByte ((r.extractLsb' 8 8).setWidth 16)
  rw [hfst, hsnd] at hstep
  rw [crcFeed_cons, crcStep_lowByte, crcFeed_cons, hstep, crcFeed_nil]
  rfl

/-- Bytes followed by their CRC, low byte first, have the CRC 0 (R138). -/
theorem crc16_append_crc (bs : List Byte) :
    crc16 (bs ++ [(crc16 bs).extractLsb' 0 8, (crc16 bs).extractLsb' 8 8]) = 0#16 :=
  (crcFeed_append _ _ _).trans (crcFeed_ownBytes _)

/-- A request frame is its nine head bytes and their CRC, low byte first (R95). -/
theorem requestFrame_toList (p : Params) (a : Byte) (g : Group) :
    (requestFrame p a g).toList =
      requestHead p a g ++ [(requestCrc p a g).extractLsb' 0 8, (requestCrc p a g).extractLsb' 8 8] := rfl

/-- A request frame carries a right CRC (R138, R150). -/
theorem crc16_requestFrame (p : Params) (a : Byte) (g : Group) : crc16 (requestFrame p a g).toList = 0#16 := by
  rw [requestFrame_toList]; exact crc16_append_crc _

/-- The CRC of a request frame is that of its first nine bytes (R150). -/
theorem crc16_requestFrame_head (p : Params) (a : Byte) (g : Group) :
    crc16 ((requestFrame p a g).toList.take 9) = requestCrc p a g := rfl

/-- A step of a running CAP sends nothing. -/
theorem runCapture_tx (s t : State) (h : runCapture s = .next t) : t.tx = s.tx := by
  rw [(runCapture_fields s t h).1]

/-- `t` has sent what `s` had sent and one request frame, which it holds in `req`, its CRC in `crc` (R150). -/
def SentFrame (s t : State) : Prop :=
  ∃ a g, t.req = requestFrame s.cfg a g ∧ t.crc = requestCrc s.cfg a g ∧
    t.tx = s.tx ++ (requestFrame s.cfg a g).toList

/-- A command sends nothing, or is a REQ that sends its frame. -/
theorem CommandKind.tx {s t : State} (h : CommandKind s t) : t.tx = s.tx ∨ SentFrame s t := by
  cases h with
  | sent a g ht => subst ht; exact .inr ⟨a, g, rfl, rfl, rfl⟩
  | capture ht => exact .inl (runCapture_tx (beginCapture s) t ht)
  | _ => subst_vars; exact .inl rfl

/-- A step sends nothing, or one request frame. -/
theorem step_tx (s t : State) (h : step s = .next t) : t.tx = s.tx ∨ SentFrame s t := by
  cases step_cases s t h with
  | command w ws i _ _ _ hd ht => exact (command_cases w i _ t hd ht).tx
  | capture _ _ ht => exact .inl (runCapture_tx s t ht)
  | row g n d ty hr hrun =>
    rcases step_of_decoding hr hrun h with rfl | rfl | rfl | ⟨r, rfl⟩ <;> exact .inl rfl
  | _ => subst_vars; exact .inl rfl

/-- Settles O24: a step sends a request frame or nothing (`step_tx`), and such a frame carries its CRC
(`crc16_requestFrame`). -/
theorem sentBytesAreFrames : Obligations.SentBytesAreFrames := by
  intro s t h
  rcases step_tx s t h with hnone | ⟨a, g, hreq, hcrc, htx⟩
  · exact .inl hnone
  · rw [hreq, hcrc, htx]
    exact .inr ⟨rfl, crc16_requestFrame _ _ _, (crc16_requestFrame_head _ _ _).symm⟩

/-! ### What a running command leaves alone -/

/-- Settles O57, by the fields of a step of a CAP (`runCapture_fields`) and the four things a step of a DEC can do
(`step_of_decoding`). -/
theorem runningCommandIsAlone : Obligations.RunningCommandIsAlone := by
  intro s t hr h
  refine ⟨fun hrun => ?_, fun g n hrun => ?_⟩
  · rw [step_of_capturing s hr hrun] at h
    exact (runCapture_fields s t h).1
  · rcases step_of_decoding hr hrun h with rfl | rfl | rfl | ⟨r, rfl⟩ <;> rfl

/-! ### The reset state and the parameters -/

/-- The allowed parameters are the well-formed ones. -/
theorem wellFormed_iff_allowed (p : Params) : p.wellFormed = true ↔ AllowedParams p := by
  simp only [Params.wellFormed, AllowedParams, descriptorOk, addressesUnique, List.Nodup, List.pairwise_map,
    Bool.and_eq_true, decide_eq_true_eq, List.all_eq_true, and_assoc]
  exact Iff.rfl

/-- Well-formed parameters give their reset state. -/
theorem instantiate_wellFormed (p : Params) (h : p.wellFormed = true) : instantiate p = some (State.resetWith p) :=
  if_pos h

/-- Any other parameters give none (log entry 1). -/
theorem instantiate_illFormed (p : Params) (h : ¬ p.wellFormed = true) : instantiate p = none := if_neg h

/-- The reset state has the invariant, for well-formed parameters: nothing is captured or located, no command runs. -/
theorem inv_resetWith (p : Params) (h : p.wellFormed = true) : Inv (State.resetWith p) where
  params := h
  canonical := wf_nil
  inBuffer _ hc := nomatch hc
  captured a ha := absurd ha (Nat.not_lt_zero a)
  lenCap := Nat.zero_le _
  cvLen hcv := nomatch hcv
  pvCv hpv := nomatch hpv
  pvRange hpv := nomatch hpv
  pvFrame hpv := nomatch hpv
  cidxRange := Nat.zero_le _
  errsBit0 := BitVec.getLsbD_zero
  errsBit1 := BitVec.getLsbD_zero
  running := trivial

theorem default_wellFormed : Params.default.wellFormed = true := by decide

/-- Settles O3: `inv_resetWith`, for the default parameters and for those `instantiate` accepts. -/
theorem resetSatisfiesInv : Obligations.ResetSatisfiesInv := by
  refine ⟨inv_resetWith _ default_wellFormed, fun p s hs => ?_⟩
  by_cases h : p.wellFormed = true
  · rw [instantiate_wellFormed p h] at hs
    cases hs; exact inv_resetWith p h
  · rw [instantiate_illFormed p h] at hs
    cases hs

/-- Settles O58, by `wellFormed_iff_allowed`. -/
theorem onlyAllowedParametersInstantiate : Obligations.OnlyAllowedParametersInstantiate := by
  intro p
  exact ⟨fun h => instantiate_wellFormed p ((wellFormed_iff_allowed p).2 h),
    fun h => instantiate_illFormed p (mt (wellFormed_iff_allowed p).1 h)⟩

/-! ### What is refused -/

/-- A descriptor word that decodes is well formed (R98, R101). -/
theorem descriptorOk_of_decode (d : Word) (i : Instr) (h : decodeDescriptor d = .ok i) : descriptorOk d = true := by
  obtain ⟨t, hrsv, htag, -⟩ := decodeDescriptor_ok d i h
  have hcode : (rowTagOf d).toNat ≤ 8 := by rw [htag]; cases t <;> decide
  simp only [descriptorOk, Bool.and_eq_true, decide_eq_true_eq]
  exact ⟨hcode, hrsv⟩

/-- An ill-formed descriptor word does not decode (R101). -/
theorem decodeDescriptor_error (d : Word) (h : 8 < (d.extractLsb' 16 4).toNat ∨ d.extractLsb' 20 12 ≠ 0#12) :
    ∃ e, decodeDescriptor d = .error e := by
  cases hd : decodeDescriptor d with
  | error e => exact ⟨e, rfl⟩
  | ok i =>
    have hok := descriptorOk_of_decode d i hd
    simp only [descriptorOk, Bool.and_eq_true, decide_eq_true_eq] at hok
    obtain ⟨htag, hrsv⟩ := hok
    rcases h with h | h
    · exact absurd htag (Nat.not_le.2 h)
    · exact absurd hrsv h

/-- Settles O59: `interpretRow_refused` outside a DEC, and `step_of_badRow` at a word that does not decode. -/
theorem rowRefusals : Obligations.RowRefusals := by
  refine ⟨fun s t addr hrun => ?_, fun s g n d hr hrun hc hbad => ?_⟩
  · rw [exec_ofRow]; exact interpretRow_refused t addr hrun
  · obtain ⟨e, he⟩ := decodeDescriptor_error d hbad
    exact step_of_badRow hr hrun hc he

end Sys2Proof.Machine
end

section
/-! SUPPORT. The proofs about the state of the unit (spec 10_state.md): what each kind of step is, the invariant, the
streams, the completion records, the CRC register, and the part of the buffer a step looks at. -/

namespace Sys2Proof.Machine

/-! ### Which step is taken -/

/-- With no command running and CMD empty the unit waits (log entry 6). -/
theorem step_of_noCommand {s : State} (hr : s.rst = false) (hrun : s.run = .idle) (hc : s.cmd = []) :
    step s = .next s := by
  simp [step, hr, hrun, nextCommand, hc]

/-- With no command running the first word of CMD is taken and the command it decodes to executed (R28). -/
theorem step_of_command {s : State} {w : Word} {ws : List Word} {i : Instr} (hr : s.rst = false)
    (hrun : s.run = .idle) (hc : s.cmd = w :: ws) (hd : decodeCommand w = .ok i) :
    step s = exec i { s with cmd := ws } := by
  simp [step, hr, hrun, nextCommand, hc, hd]

/-- With no command running the first word of CMD is taken, and raises IllegalCommand if it does not decode (R94). -/
theorem step_of_badCommand {s : State} {w : Word} {ws : List Word} {e : DecodeError} (hr : s.rst = false)
    (hrun : s.run = .idle) (hc : s.cmd = w :: ws) (hd : decodeCommand w = .error e) :
    step s = .next (raiseIllegal { s with cmd := ws }) := by
  simp [step, hr, hrun, nextCommand, hc, hd]

/-- Settles O6, by `step_of_command`. -/
theorem stepRunsDecodedCommand : Obligations.StepRunsDecodedCommand :=
  fun _ _ _ _ hr hrun hc hd => step_of_command hr hrun hc hd

/-- Settles O7: what decodes is a row (`decodeDescriptor_ok`), and `step_of_row` interprets it. -/
theorem stepRunsDecodedRow : Obligations.StepRunsDecodedRow := by
  intro s g n d i hr hrun hc hd
  obtain ⟨ty, -, -, rfl⟩ := decodeDescriptor_ok d i hd
  rw [step_of_row hr hrun hc hd, exec_ofRow]

/-- Settles O8, by `step_of_noCommand`. -/
theorem stepWaitsForCommand : Obligations.StepWaitsForCommand := fun _ hr hrun hc => step_of_noCommand hr hrun hc

/-- Settles O34, by `exec_dec_starts`. -/
theorem decStarts : Obligations.DecStarts := fun _ _ hpv hpg => exec_dec_starts hpv hpg

/-- Settles O46: such an address is not in the window (`inWindow_iff`), so the row is skipped. -/
theorem rowOutsideWindowSkipped : Obligations.RowOutsideWindowSkipped := by
  intro s t addr g n hrun haddr
  have hw : inWindow (groupRecord s.cfg g).base addr = false := by
    rw [← Bool.not_eq_true, inWindow_iff]
    omega
  rw [exec_ofRow]
  exact interpretRow_outside hrun hw

/-- Settles O48: the catalogue has no row at `cidx`, so `step_of_noRow` completes the DEC. -/
theorem decEndsAfterLastRow : Obligations.DecEndsAfterLastRow := by
  intro s g n hr hrun hend
  exact step_of_noRow hr hrun (List.getElem?_eq_none hend)

/-! ### The status word -/

/-- The bits of the status word, field by field (R36). -/
theorem getLsbD_statusWord (s : State) (i : Nat) :
    (statusWord s).getLsbD i =
      if i < 8 then s.errs.getLsbD i else if i = 8 then s.cv else if i = 9 then s.pv
      else if i < 12 then s.pg.getLsbD (i - 10) else false := by
  refine (BitVec.getLsbD_append (x := 0#4 ++ s.pg ++ BitVec.ofBool s.pv ++ BitVec.ofBool s.cv) (y := s.errs)).trans ?_
  refine ite_congr rfl (fun _ => rfl) fun h8 => ?_
  refine (BitVec.getLsbD_append (x := 0#4 ++ s.pg ++ BitVec.ofBool s.pv) (y := BitVec.ofBool s.cv)).trans ?_
  refine ite_congr (by simp; omega) (fun h => by simp [show i = 8 by omega]) fun h9 => ?_
  refine (BitVec.getLsbD_append (x := 0#4 ++ s.pg) (y := BitVec.ofBool s.pv)).trans ?_
  refine ite_congr (by simp; omega) (fun h => by simp [show i = 9 by omega]) fun h10 => ?_
  refine (BitVec.getLsbD_append (x := 0#4) (y := s.pg)).trans ?_
  refine ite_congr (by simp; omega) (fun _ => by congr 1) fun _ => BitVec.getLsbD_zero

/-- Settles O21, with the fields of the status word read off its bits (`getLsbD_statusWord`). -/
theorem statResult : Obligations.StatResult := by
  refine ⟨by decide, fun s => ⟨statusWord s, rfl, ?_, ?_, ?_, ?_, ?_⟩⟩
  · apply BitVec.eq_of_getLsbD_eq; intro i hi
    rw [BitVec.getLsbD_extractLsb', getLsbD_statusWord]
    simp [hi]
  · rw [getLsbD_statusWord]; rfl
  · rw [getLsbD_statusWord]; rfl
  · apply BitVec.eq_of_getLsbD_eq; intro i hi
    rw [BitVec.getLsbD_extractLsb', getLsbD_statusWord, if_neg (by omega), if_neg (by omega), if_neg (by omega),
      if_pos (by omega), Nat.add_sub_cancel_left]
    simp [hi]
  · apply BitVec.eq_of_getLsbD_eq; intro i hi
    rw [BitVec.getLsbD_extractLsb', getLsbD_statusWord, if_neg (by omega), if_neg (by omega), if_neg (by omega),
      if_neg (by omega)]
    simp

/-! ### The invariant -/

/-- The invariant but for what a command in progress presupposes: the invariant of the state with no command running. -/
def InvAtRest (s : State) : Prop := Inv { s with run := .idle }

section InvAtRest

variable {s : State}

theorem Inv.atRest (h : Inv s) : InvAtRest s := { h with running := trivial }

/-- The rest of the invariant and what the command in progress presupposes are the invariant. -/
theorem InvAtRest.inv (h : InvAtRest s) (hrun : RunOk s) : Inv s := { h with running := hrun }

/-- The invariant looks at no input stream. -/
theorem InvAtRest.setCmd (h : InvAtRest s) (ws : List Word) : InvAtRest { s with cmd := ws } := { h with }

/-- The invariant does not look at the CRC register. -/
theorem InvAtRest.setCrc (h : InvAtRest s) (c : Half) : InvAtRest { s with crc := c } := { h with }

/-- The invariant does not look at the request frame nor at what was sent. -/
theorem InvAtRest.sendRequest (h : InvAtRest s) (a : Byte) (g : Group) : InvAtRest (sendRequest a g s) := { h with }

/-- A command that completes leaves the unit at rest. -/
theorem InvAtRest.complete (h : InvAtRest s) (r : Half) : Inv (complete r s) := { h with }

/-- A command that raises an error the unit produces leaves the unit at rest, with bits 0 and 1 of ERRS clear (R35). -/
theorem InvAtRest.raise (h : InvAtRest s) {k : ErrorKind} (hk : k ≠ .transportUnavailable) (r : Half) :
    Inv (raise k r s) :=
  { h with
    errsBit0 := (setErrBit_low s.errs k hk).1.trans h.errsBit0
    errsBit1 := (setErrBit_low s.errs k hk).2.trans h.errsBit1 }

theorem InvAtRest.raiseIllegal (h : InvAtRest s) : Inv (raiseIllegal s) := h.raise (by decide) _

/-- LOC without a match clears `pv` (R184). -/
theorem InvAtRest.clearPv (h : InvAtRest s) : InvAtRest { s with pv := false } :=
  { h with pvCv := nofun, pvRange := nofun, pvFrame := nofun }

/-- LOC with a match at `p`: signature and identifier were read there, and a payload byte follows (R181, R183). -/
theorem InvAtRest.located (h : InvAtRest s) {g : Group} {p : Nat} (hcv : s.cv = true)
    (hs : scan s (groupRecord s.cfg g).gid (scanCount s) 0 = .ok (some p)) :
    InvAtRest (located (groupBits g) p s) := by
  obtain ⟨-, hp, ⟨m, hm, hframe⟩, -⟩ := scan_some s _ _ _ _ hs
  obtain ⟨-, hread⟩ := memRead_ok _ _ _ _ hm
  have hlen : p + 6 < s.len.toNat := by
    simp only [scanCount, frameOverhead] at hp
    omega
  have hpoff : (BitVec.ofNat 16 (p + frameOverhead)).toNat = p + 6 := by
    have := s.len.isLt
    simp only [BitVec.toNat_ofNat, frameOverhead]
    omega
  exact { h with
    pvCv := fun _ => hcv
    pvRange := fun _ => by
      change 6 ≤ (BitVec.ofNat 16 (p + frameOverhead)).toNat ∧ (BitVec.ofNat 16 (p + frameOverhead)).toNat < s.len.toNat
      omega
    pvFrame := fun _ => by
      refine ⟨g, m, rfl, ?_, (frameAt_iff _ _).1 hframe⟩
      change readBytes s.mem ((BitVec.ofNat 16 (p + frameOverhead)).toNat - 6) 6 = .ok m
      rwa [hpoff, Nat.add_sub_cancel] }

/-- Reset leaves the invariant: nothing is captured or located, no error is recorded (R281). -/
theorem Inv.resetUnit (h : Inv s) : Inv (resetUnit s) := { inv_resetWith s.cfg h.params with }

/-! #### A running CAP -/

/-- CAP starts with nothing captured and nothing located (R167). -/
theorem InvAtRest.beginCapture (h : InvAtRest s) : Inv (beginCapture s) :=
  { h with
    captured := fun a ha => absurd ha (Nat.not_lt_zero a)
    lenCap := Nat.zero_le _
    cvLen := nofun
    pvCv := nofun
    pvRange := nofun
    pvFrame := nofun
    running := ⟨rfl, rfl⟩ }

/-- What the loop of CAP stores keeps the rest of the invariant, while nothing is valid (`captureTokens_keeps`). -/
theorem InvAtRest.withCaptured (h : InvAtRest s) (hcv : s.cv = false) (hpv : s.pv = false) :
    InvAtRest (withCaptured (captureTokens s.cfg.bufCap s.rx s.mem s.len) s) := by
  obtain ⟨-, hcap, -⟩ := wellFormed_bounds _ h.params
  obtain ⟨hlen, hwf, hin, hread⟩ :=
    captureTokens_keeps s.cfg.bufCap hcap s.rx s.mem s.len h.lenCap h.canonical h.inBuffer h.captured
  have hcv' : ¬ s.cv = true := by simp [hcv]
  have hpv' : ¬ s.pv = true := by simp [hpv]
  exact { h with
    canonical := hwf
    inBuffer := hin
    captured := hread
    lenCap := hlen
    cvLen := fun h => absurd h hcv'
    pvRange := fun h => absurd h hpv'
    pvFrame := fun h => absurd h hpv' }

/-- A capture of at least 6 bytes may be marked valid (R31). -/
theorem InvAtRest.setCv (h : InvAtRest s) (hlen : 6 ≤ s.len.toNat) : InvAtRest { s with cv := true } :=
  { h with cvLen := fun _ => hlen, pvCv := fun _ => rfl }

/-- A step of a running CAP keeps the invariant. -/
theorem Inv.runCapture {t : State} (h : Inv s) (hrun : s.run = .capturing) (ht : runCapture s = .next t) : Inv t := by
  obtain ⟨hcv, hpv⟩ : s.cv = false ∧ s.pv = false := by simpa [RunOk, hrun] using h.running
  have hc := h.atRest.withCaptured hcv hpv
  rcases runCapture_cases s t ht with ⟨-, -, rfl⟩ | ⟨-, hlen, rfl⟩ | ⟨-, rfl⟩
  · exact hc.raise (by decide) _
  · exact (hc.setCv hlen).complete _
  · exact { hc with running := ⟨hcv, hpv⟩ }

end InvAtRest

/-! #### A running DEC -/

section RunningDec

variable {s : State} {g : Group} {n : Half}

/-- DEC starts only for the located group (R196). -/
theorem InvAtRest.startDec (h : InvAtRest s) (hpv : s.pv = true) (hpg : s.pg = groupBits g) :
    Inv { s with cidx := 0#16, run := .decoding g 0#16 } :=
  { h with cidxRange := Nat.zero_le _, running := ⟨hpv, hpg, Nat.le_refl _⟩ }

/-- What a running DEC presupposes. -/
theorem Inv.decoding (h : Inv s) (hrun : s.run = .decoding g n) :
    s.pv = true ∧ s.pg = groupBits g ∧ n.toNat ≤ s.cidx.toNat := by
  simpa [RunOk, hrun] using h.running

/-- Passing a row of the catalogue moves `cidx` by one, without wrapping (R29). -/
theorem Inv.cidx_succ (h : Inv s) (hlt : s.cidx.toNat < s.cfg.nDesc) :
    (s.cidx + 1#16).toNat = s.cidx.toNat + 1 := by
  obtain ⟨-, -, hn, -⟩ := wellFormed_bounds _ h.params
  exact toNat_succ _ (by omega)

theorem Inv.skipRow (h : Inv s) (hrun : s.run = .decoding g n) (hlt : s.cidx.toNat < s.cfg.nDesc) :
    Inv (skipRow s) := by
  obtain ⟨hpv, hpg, hn⟩ := h.decoding hrun
  have hsucc := h.cidx_succ hlt
  have hrange : (s.cidx + 1#16).toNat ≤ s.cfg.nDesc := by omega
  refine { h with cidxRange := hrange, running := ?_ }
  simp only [RunOk, skipRow_run, hrun]
  exact ⟨hpv, hpg, by rw [skipRow_cidx]; omega⟩

theorem Inv.emitRow (h : Inv s) (hrun : s.run = .decoding g n) (hlt : s.cidx.toNat < s.cfg.nDesc) (r : FieldRecord) :
    Inv (emitRow g n r s) := by
  obtain ⟨hpv, hpg, hn⟩ := h.decoding hrun
  obtain ⟨-, -, hdesc, -⟩ := wellFormed_bounds _ h.params
  have hsucc := h.cidx_succ hlt
  have hcount : (n + 1#16).toNat = n.toNat + 1 := toNat_succ n (by omega)
  have hrange : (s.cidx + 1#16).toNat ≤ s.cfg.nDesc := by omega
  have hle : (n + 1#16).toNat ≤ (s.cidx + 1#16).toNat := by omega
  exact { h with cidxRange := hrange, running := ⟨hpv, hpg, hle⟩ }

/-- A row that a running DEC interprets keeps the invariant. -/
theorem Inv.interpretRow {t : State} {ty : TypeTag} {addr : Half} (h : Inv s) (hlt : s.cidx.toNat < s.cfg.nDesc)
    (ht : interpretRow ty addr s = .next t) : Inv t := by
  obtain ⟨g, n, hrun, hrow⟩ := interpretRow_cases _ _ _ _ ht
  rcases hrow with ⟨-, rfl⟩ | ⟨-, -, rfl⟩ | ⟨-, -, m, -, rfl⟩
  · exact h.skipRow hrun hlt
  · exact h.atRest.raise (by decide) _
  · exact h.emitRow hrun hlt _

end RunningDec

/-! #### Every step -/

/-- A command keeps the invariant. -/
theorem CommandKind.inv {s t : State} (h : CommandKind s t) (hs : InvAtRest s) : Inv t := by
  cases h with
  | crci ht => subst ht; exact (hs.setCrc _).complete _
  | crcb a ht => subst ht; exact (hs.setCrc _).complete _
  | crcr ht => subst ht; exact hs.complete _
  | stat ht => subst ht; exact hs.complete _
  | illegal ht => subst ht; exact hs.raiseIllegal
  | sent a g ht => subst ht; exact (hs.sendRequest a g).complete _
  | rejected ht => subst ht; exact hs.raise (by decide) _
  | capture ht => exact hs.beginCapture.runCapture rfl ht
  | found g p hcv hscan ht => subst ht; exact (hs.located hcv hscan).complete _
  | notFound g hscan ht => subst ht; exact hs.clearPv.raise (by decide) _
  | outOfSequence ht => subst ht; exact hs.raise (by decide) _
  | startDec g hpv hpg ht => subst ht; exact hs.startDec hpv hpg

/-- Settles O4, by the kinds of steps (`step_cases`) and of commands (`CommandKind.inv`). -/
theorem stepKeepsInv : Obligations.StepKeepsInv := by
  intro s t hs h
  cases step_cases s t h with
  | reset _ ht => subst ht; exact hs.resetUnit
  | waiting _ _ _ ht => subst ht; exact hs
  | illegal w ws e _ _ _ _ ht => subst ht; exact (hs.atRest.setCmd ws).raiseIllegal
  | command w ws i _ _ _ hd ht => exact (command_cases w i _ t hd ht).inv (hs.atRest.setCmd ws)
  | capture _ hrun ht => exact hs.runCapture hrun ht
  | finish g n _ _ _ ht => subst ht; exact hs.atRest.complete n
  | row g n d ty _ _ hc _ ht => exact hs.interpretRow (List.getElem?_eq_some_iff.1 hc).1 ht

/-! ### The parameters and the reset input -/

/-- No command changes the parameters or the reset input. -/
theorem CommandKind.cfg_rst {s t : State} (h : CommandKind s t) : t.cfg = s.cfg ∧ t.rst = s.rst := by
  cases h with
  | capture ht => rw [(runCapture_fields _ t ht).1]; exact ⟨rfl, rfl⟩
  | _ => subst_vars; exact ⟨rfl, rfl⟩

/-- Settles O53, by the kinds of steps and of commands. -/
theorem parametersNeverChange : Obligations.ParametersNeverChange := by
  intro s t h
  cases step_cases s t h with
  | command w ws i _ _ _ hd ht => exact (command_cases w i _ t hd ht).cfg_rst
  | capture _ _ ht => rw [(runCapture_fields s t ht).1]; exact ⟨rfl, rfl⟩
  | row g n d ty hr hrun => rcases step_of_decoding hr hrun h with rfl | rfl | rfl | ⟨r, rfl⟩ <;> exact ⟨rfl, rfl⟩
  | _ => subst_vars; exact ⟨rfl, rfl⟩

/-! ### The streams -/

/-- From `s` to `t` the output streams grew at their ends and the input streams lost elements at their heads (R22). -/
structure StreamsOrdered (s t : State) : Prop where
  tx  : s.tx <+: t.tx
  fld : s.fld <+: t.fld
  cpl : s.cpl <+: t.cpl
  cmd : t.cmd <:+ s.cmd
  rx  : t.rx <:+ s.rx

/-- A command orders the streams: it appends to TX and CPL at most, and takes tokens only as a CAP. -/
theorem CommandKind.streams {s t : State} (h : CommandKind s t) : StreamsOrdered s t := by
  cases h with
  | capture ht =>
    obtain ⟨hframe, hrx, hcpl⟩ := runCapture_fields _ t ht
    rw [hframe]
    exact ⟨List.prefix_refl _, List.prefix_refl _, hcpl, List.suffix_refl _, hrx⟩
  | _ => subst_vars; constructor <;> simp

/-- A step orders the streams. -/
theorem step_streams (s t : State) (h : step s = .next t) : StreamsOrdered s t := by
  cases step_cases s t h with
  | illegal w ws e _ _ hc _ ht => subst ht; constructor <;> simp [hc]
  | command w ws i _ _ hc hd ht =>
    obtain ⟨htx, hfld, hcpl, hcmd, hrx⟩ := (command_cases w i _ t hd ht).streams
    exact ⟨htx, hfld, hcpl, hcmd.trans (hc ▸ List.suffix_cons w ws), hrx⟩
  | capture _ _ ht =>
    obtain ⟨hframe, hrx, hcpl⟩ := runCapture_fields s t ht
    rw [hframe]
    exact ⟨List.prefix_refl _, List.prefix_refl _, hcpl, List.suffix_refl _, hrx⟩
  | row g n d ty hr hrun =>
    rcases step_of_decoding hr hrun h with rfl | rfl | rfl | ⟨r, rfl⟩ <;> constructor <;> simp
  | _ => subst_vars; constructor <;> simp

/-- Settles O50, by `step_streams`. -/
theorem streamsKeepOrder : Obligations.StreamsKeepOrder := by
  intro s t h
  obtain ⟨htx, hfld, hcpl, hcmd, hrx⟩ := step_streams s t h
  exact ⟨htx, hfld, hcpl, hcmd, hrx⟩

/-! ### Completion records and ERRS -/

/-- `t` has ended a command of `s`: one completion record with a code the unit produces was appended, and ERRS gained the
bit of a non-zero code (R103, R246). -/
def EndsCommand (s t : State) : Prop :=
  t.run = .idle ∧ ∃ c : Completion, t.cpl = s.cpl ++ [c] ∧ c.err.toNat ≤ 7 ∧ c.err ≠ 1#4 ∧
    t.errs = if c.err = 0#4 then s.errs else s.errs ||| (1#8 <<< c.err.toNat)

/-- `t` goes on with a command of `s`: no completion record, ERRS unchanged, and the unit not idle. -/
def GoesOn (s t : State) : Prop := t.cpl = s.cpl ∧ t.errs = s.errs ∧ t.run ≠ .idle

/-- Completing ends the command with code 0 (R103). -/
theorem complete_endsCommand {s u : State} (r : Half) (hcpl : u.cpl = s.cpl) (herrs : u.errs = s.errs) :
    EndsCommand s (complete r u) :=
  ⟨rfl, ⟨0#4, r⟩, by rw [complete_cpl, hcpl], Nat.zero_le 7, (by decide : (0#4 : BitVec 4) ≠ 1#4),
    by rw [complete_errs, herrs]; rfl⟩

/-- The codes of the errors the unit raises are 2 to 7 (R240, R241). -/
theorem code_raised {k : ErrorKind} (hk : k ≠ .transportUnavailable) :
    k.code.toNat ≤ 7 ∧ k.code ≠ 0#4 ∧ k.code ≠ 1#4 := by
  cases k with
  | transportUnavailable => exact absurd rfl hk
  | _ => decide

/-- Raising an error the unit produces ends the command with its code and sets its bit (R246). -/
theorem raise_endsCommand {s u : State} {k : ErrorKind} (hk : k ≠ .transportUnavailable) (r : Half)
    (hcpl : u.cpl = s.cpl) (herrs : u.errs = s.errs) : EndsCommand s (raise k r u) := by
  obtain ⟨hle, h0, h1⟩ := code_raised hk
  exact ⟨rfl, ⟨k.code, r⟩, by rw [raise_cpl, hcpl], hle, h1, by rw [raise_errs, herrs, if_neg h0]; rfl⟩

/-- A step of a running CAP ends it or goes on with it. -/
theorem runCapture_ends (s t : State) (h : runCapture s = .next t) : EndsCommand s t ∨ GoesOn s t := by
  rcases runCapture_cases s t h with ⟨-, -, rfl⟩ | ⟨-, -, rfl⟩ | ⟨-, rfl⟩
  · exact .inl (raise_endsCommand (by decide) _ rfl rfl)
  · exact .inl (complete_endsCommand _ rfl rfl)
  · exact .inr ⟨rfl, rfl, nofun⟩

/-- A command ends at once, except a CAP that waits and a DEC that starts. -/
theorem CommandKind.ends {s t : State} (h : CommandKind s t) : EndsCommand s t ∨ GoesOn s t := by
  cases h with
  | capture ht => exact runCapture_ends (beginCapture s) t ht
  | startDec g _ _ ht => subst ht; exact .inr ⟨rfl, rfl, nofun⟩
  | illegal ht => subst ht; exact .inl (raise_endsCommand (by decide) _ rfl rfl)
  | rejected ht => subst ht; exact .inl (raise_endsCommand (by decide) _ rfl rfl)
  | notFound g _ ht => subst ht; exact .inl (raise_endsCommand (by decide) _ rfl rfl)
  | outOfSequence ht => subst ht; exact .inl (raise_endsCommand (by decide) _ rfl rfl)
  | _ => subst_vars; exact .inl (complete_endsCommand _ rfl rfl)

/-- A step without reset waits with nothing to do, or ends or goes on with a command, which is running or the next word
of CMD. -/
theorem step_ends (s t : State) (hr : s.rst = false) (h : step s = .next t) :
    t = s ∧ s.run = .idle ∨ (s.run ≠ .idle ∨ s.cmd ≠ []) ∧ (EndsCommand s t ∨ GoesOn s t) := by
  cases step_cases s t h with
  | reset hrst => simp [hr] at hrst
  | waiting _ hrun _ ht => exact .inl ⟨ht, hrun⟩
  | illegal w ws e _ _ hc _ ht =>
    subst ht; exact .inr ⟨.inr (by simp [hc]), .inl (raise_endsCommand (by decide) _ rfl rfl)⟩
  | command w ws i _ _ hc hd ht => exact .inr ⟨.inr (by simp [hc]), (command_cases w i _ t hd ht).ends⟩
  | capture _ hrun ht => exact .inr ⟨.inl (by simp [hrun]), runCapture_ends s t ht⟩
  | finish g n _ hrun _ ht => subst ht; exact .inr ⟨.inl (by simp [hrun]), .inl (complete_endsCommand _ rfl rfl)⟩
  | row g n d ty _ hrun =>
    refine .inr ⟨.inl (by simp [hrun]), ?_⟩
    rcases step_of_decoding hr hrun h with rfl | rfl | rfl | ⟨r, rfl⟩
    · exact .inl (complete_endsCommand _ rfl rfl)
    · exact .inr ⟨rfl, rfl, by simp [hrun]⟩
    · exact .inl (raise_endsCommand (by decide) _ rfl rfl)
    · exact .inr ⟨rfl, rfl, nofun⟩

/-- Settles O51, by `step_ends`. -/
theorem oneCompletionPerCommand : Obligations.OneCompletionPerCommand := by
  intro s t hr h
  rcases step_ends s t hr h with ⟨rfl, -⟩ | ⟨hcmd, ⟨hrun, hc⟩ | ⟨hcpl, herrs, hrun⟩⟩
  · exact .inr ⟨rfl, rfl, .inr rfl⟩
  · exact .inl ⟨hrun, hcmd, hc⟩
  · exact .inr ⟨hcpl, herrs, .inl hrun⟩

/-- Setting a bit of ERRS other than 0 and 1 clears none and leaves those two. -/
theorem setBit_keeps (e : BitVec 8) (j : Nat) (hj : 2 ≤ j) :
    (∀ k, e.getLsbD k = true → (e ||| (1#8 <<< j)).getLsbD k = true) ∧
      (e ||| (1#8 <<< j)).getLsbD 0 = e.getLsbD 0 ∧ (e ||| (1#8 <<< j)).getLsbD 1 = e.getLsbD 1 := by
  refine ⟨fun k hk => by rw [BitVec.getLsbD_or, hk, Bool.true_or], ?_, ?_⟩
  · rw [BitVec.getLsbD_or, BitVec.getLsbD_shiftLeft]
    simp [show 0 < j by omega]
  · rw [BitVec.getLsbD_or, BitVec.getLsbD_shiftLeft]
    simp [show 1 < j by omega]

/-- A completion code other than 0 and 1 is the number of a bit from 2 on. -/
theorem two_le_code (c : BitVec 4) (h0 : c ≠ 0#4) (h1 : c ≠ 1#4) : 2 ≤ c.toNat := by
  revert c; decide

/-- Settles O52: what a step adds to ERRS is the bit of its completion record (`oneCompletionPerCommand`), which is
neither 0 nor 1. -/
theorem errsIsSticky : Obligations.ErrsIsSticky := by
  intro s t hr h
  rcases oneCompletionPerCommand s t hr h with ⟨-, -, c, -, -, h1, herrs⟩ | ⟨-, herrs, -⟩
  · by_cases h0 : c.err = 0#4
    · rw [herrs, if_pos h0]; exact ⟨fun _ hk => hk, rfl, rfl⟩
    · rw [herrs, if_neg h0]; exact setBit_keeps s.errs _ (two_le_code c.err h0 h1)
  · rw [herrs]; exact ⟨fun _ hk => hk, rfl, rfl⟩

/-! ### The CRC register -/

/-- A command word is the encoding of the command it decodes to (R92). -/
theorem encode_of_decodeCommand {w : Word} {i : Instr} (h : decodeCommand w = .ok i) : encode i = w := by
  obtain ⟨hrsv, hform⟩ := decodeCommand_ok w i h
  have hw := commandWord_fields w hrsv
  rcases hform with ⟨ho, ha, hg, rfl⟩ | ⟨ho, hg, rfl⟩ | ⟨ho, ha, hg, rfl⟩ | ⟨ho, ha, hg, rfl⟩ | ⟨ho, rfl⟩ |
    ⟨ho, ha, hg, rfl⟩ | ⟨ho, ha, rfl⟩ | ⟨ho, ha, rfl⟩
  · rw [ho, ha, hg] at hw; exact hw
  · rw [ho, hg] at hw; exact hw
  · rw [ho, ha, hg] at hw; exact hw
  · rw [ho, ha, hg] at hw; exact hw
  · rw [ho] at hw; exact hw
  · rw [ho, ha, hg] at hw; exact hw
  · rw [ho, ha] at hw; exact hw
  · rw [ho, ha] at hw; exact hw

/-- A step of a running CAP leaves the CRC register. -/
theorem runCapture_crc (s t : State) (h : runCapture s = .next t) : t.crc = s.crc := by
  rw [(runCapture_fields s t h).1]

/-- The commands with an effect on the CRC register: CRCI, CRCB and REQ (R24). -/
inductive WritesCrc : Instr → Prop where
  | crci : WritesCrc .crci
  | crcb (a : Byte) : WritesCrc (.crcb a)
  | req (a : Byte) (g : BitVec 2) : WritesCrc (.req a g)

/-- Every other instruction leaves the CRC register. -/
theorem exec_crc (i : Instr) (s t : State) (h : exec i s = .next t) : t.crc = s.crc ∨ WritesCrc i := by
  cases hi : i.isCommand with
  | false =>
    obtain ⟨ty, addr, rfl⟩ := eq_ofRow i hi
    rw [exec_ofRow] at h
    obtain ⟨g, n, -, ⟨-, rfl⟩ | ⟨-, -, rfl⟩ | ⟨-, -, m, -, rfl⟩⟩ := interpretRow_cases _ _ _ _ h <;> exact .inl rfl
  | true =>
    cases i with
    | crci => exact .inr .crci
    | crcb a => exact .inr (.crcb a)
    | req a g => exact .inr (.req a g)
    | crcr => cases h; exact .inl rfl
    | stat => cases h; exact .inl rfl
    | cap => exact .inl (runCapture_crc (beginCapture s) t h)
    | loc g =>
      rcases execLoc_cases g s t h with ⟨-, rfl⟩ | ⟨_, _, -, -, -, rfl⟩ | ⟨_, -, -, -, rfl⟩ | ⟨_, -, -, rfl⟩ <;>
        exact .inl rfl
    | dec g =>
      rcases execDec_cases g s t h with ⟨-, rfl⟩ | ⟨_, -, -, -, rfl⟩ | ⟨_, -, -, rfl⟩ <;> exact .inl rfl
    | _ => cases hi

/-- Settles O54: only a command word can change the CRC register (`exec_crc`), and it is the encoding of its command. -/
theorem onlyCrcCommandsWriteCrc : Obligations.OnlyCrcCommandsWriteCrc := by
  intro s t hr h hne
  cases step_cases s t h with
  | reset hrst => simp [hr] at hrst
  | command w ws i _ hrun hc hd ht =>
    refine ⟨hrun, w, ws, hc, ?_⟩
    have hw := encode_of_decodeCommand hd
    cases (exec_crc i _ t ht).resolve_left hne with
    | crci => exact .inl hw.symm
    | crcb a => exact .inr (.inl ⟨a, hw.symm⟩)
    | req a g => exact .inr (.inr ⟨a, g, hw.symm⟩)
  | capture _ _ ht => exact absurd (runCapture_crc s t ht) hne
  | row g n d ty _ hrun =>
    rcases step_of_decoding hr hrun h with rfl | rfl | rfl | ⟨r, rfl⟩ <;> exact absurd rfl hne
  | _ => subst_vars; exact absurd rfl hne

/-! ### When a command does what -/

section Commands

variable {s : State} {g : Group}

/-- REQ to an accepted address sends the frame (R150). -/
theorem execReq_sent {a : Byte} (ha : addressOk a = true) :
    execReq a (groupBits g) s = .next (complete (requestCrc s.cfg a g) (sendRequest a g s)) := by
  simp only [execReq, groupOf_groupBits, ha, if_true]

/-- REQ to any other address is rejected (R152). -/
theorem execReq_rejected {a : Byte} (ha : addressOk a = false) :
    execReq a (groupBits g) s = .next (raise .invalidAddress 0#16 s) := by
  simp only [execReq, groupOf_groupBits, ha, Bool.false_eq_true, if_false]

/-- LOC over a valid capture takes the position its scan finds (R183). -/
theorem execLoc_found {p : Nat} (hcv : s.cv = true)
    (hs : scan s (groupRecord s.cfg g).gid (scanCount s) 0 = .ok (some p)) :
    execLoc (groupBits g) s =
      .next (complete (BitVec.ofNat 16 (p + frameOverhead)) (located (groupBits g) p s)) := by
  simp only [execLoc, groupOf_groupBits, hcv, if_true, hs]

/-- LOC over a valid capture in which its scan finds nothing raises SignatureNotFound (R184). -/
theorem execLoc_notFound (hcv : s.cv = true)
    (hs : scan s (groupRecord s.cfg g).gid (scanCount s) 0 = .ok none) :
    execLoc (groupBits g) s = .next (raise .signatureNotFound 0#16 { s with pv := false }) := by
  simp only [execLoc, groupOf_groupBits, hcv, if_true, hs]

/-- LOC without a valid capture is out of sequence (R187). -/
theorem execLoc_noCapture (hcv : s.cv = false) :
    execLoc (groupBits g) s = .next (raise .outOfSequence 0#16 s) := by
  simp only [execLoc, groupOf_groupBits, hcv, Bool.false_eq_true, if_false]

/-- DEC without a located frame of its group is out of sequence (R201). -/
theorem execDec_noFrame (h : s.pv = false ∨ s.pg ≠ groupBits g) :
    execDec (groupBits g) s = .next (raise .outOfSequence 0#16 s) := by
  rcases h with h | h <;> simp [execDec, h]

end Commands

/-! ### A capture that a Quiet ends -/

/-- From an empty capture, bytes that fit are stored at the indices 0 upward (R167). -/
theorem captureTokens_fromStart (cap : Nat) (bs : List Byte) (rest : List Token) (mem : Memory)
    (h : bs.length ≤ cap) (hcap : cap ≤ 65535) :
    ∃ m, (∀ a, Memory.read? m a = if a < bs.length then bs[a]? else Memory.read? mem a) ∧
      captureTokens cap (bs.map .byte ++ rest) mem 0#16 = captureTokens cap rest m (BitVec.ofNat 16 bs.length) := by
  have hzero : (0#16).toNat = 0 := rfl
  obtain ⟨m, hm, hc⟩ := captureTokens_span cap bs rest mem 0#16 (by omega) (by omega)
  refine ⟨m, fun a => ?_, by rw [hc, BitVec.zero_add]⟩
  simpa only [hzero, Nat.zero_le, true_and, Nat.zero_add, Nat.sub_zero] using hm a

/-- A running CAP whose loop ends with at least 6 bytes completes, and its capture is valid (R167). -/
theorem runCapture_valid {s : State} {c : Captured} (hc : captureTokens s.cfg.bufCap s.rx s.mem s.len = c)
    (hended : c.ended = true) (hlen : 6 ≤ c.len.toNat) :
    runCapture s = .next (complete c.len { withCaptured c s with cv := true }) := by
  simp only [runCapture, hc, hended, if_true, frameOverhead, if_neg (Nat.not_lt.2 hlen)]

/-- A running CAP whose loop ends below 6 bytes raises ShortResponse (R169). -/
theorem runCapture_short {s : State} {c : Captured} (hc : captureTokens s.cfg.bufCap s.rx s.mem s.len = c)
    (hended : c.ended = true) (hlen : c.len.toNat < 6) :
    runCapture s = .next (raise .shortResponse c.len (withCaptured c s)) := by
  simp only [runCapture, hc, hended, if_true, frameOverhead, if_pos hlen]

/-- A running CAP whose loop has not ended waits (R166). -/
theorem runCapture_waiting {s : State} {c : Captured} (hc : captureTokens s.cfg.bufCap s.rx s.mem s.len = c)
    (hended : c.ended = false) : runCapture s = .next { withCaptured c s with run := .capturing } := by
  simp only [runCapture, hc, hended, Bool.false_eq_true, if_false]

/-- Settles O25: the loop stores the bytes (`captureTokens_fromStart`), ends at the Quiet, and CAP completes
(`runCapture_valid`). -/
theorem capUntilQuiet : Obligations.CapUntilQuiet := by
  intro s bs rest hrx hmin hlt hcap
  obtain ⟨m, hm, hspan⟩ := captureTokens_fromStart s.cfg.bufCap bs (.quiet :: rest) s.mem (by omega) hcap
  have hcount : (BitVec.ofNat 16 bs.length).toNat = bs.length := by
    rw [BitVec.toNat_ofNat]; omega
  rw [captureTokens_quiet _ _ _ _ (by omega), ← hrx] at hspan
  refine ⟨m, hm, ?_⟩
  exact (runCapture_valid (s := beginCapture s) hspan rfl (by rw [hcount]; exact hmin)).trans rfl

/-! ### The bytes at and beyond `len` -/

/-- Two buffers read alike at every index below `len`. -/
def AgreeBelow (len : Half) (mem mem' : Memory) : Prop :=
  ∀ a, a < len.toNat → Memory.read? mem' a = Memory.read? mem a

/-- The outcome is `t`, except for buffer bytes at or beyond its `len`. -/
def AnswersLike (t : State) (o : Host.Outcome State Fault Refusal) : Prop :=
  ∃ m, o = .next { t with mem := m } ∧ AgreeBelow t.len t.mem m

section AnswersLike

variable {s t : State} {m : Memory}

/-- MemRead looks below `len` only (R62). -/
theorem memRead_agree (h : AgreeBelow s.len s.mem m) (a n : Nat) :
    memRead { s with mem := m } a n = memRead s a n := by
  by_cases hin : a + n ≤ s.len.toNat
  · rw [memRead_inside s a n hin, memRead_inside { s with mem := m } a n hin]
    exact readBytes_congr _ _ _ _ fun k hk => h _ (by omega)
  · simp only [memRead, if_neg hin]

/-- LOC scans below `len` only (R182). -/
theorem scan_agree (h : AgreeBelow s.len s.mem m) (gid : Half) (k p : Nat) :
    scan { s with mem := m } gid k p = scan s gid k p :=
  scan_congr _ _ _ _ _ fun r _ _ => memRead_agree h r 6

/-- REQ does not look at the buffer. -/
theorem execReq_agree (h : AgreeBelow s.len s.mem m) {a : Byte} {g : BitVec 2} (ht : execReq a g s = .next t) :
    AnswersLike t (execReq a g { s with mem := m }) := by
  rcases execReq_cases a g s t ht with ⟨rfl, rfl⟩ | ⟨grp, rfl, ha, rfl⟩ | ⟨grp, rfl, ha, rfl⟩
  · exact ⟨m, rfl, h⟩
  · exact ⟨m, execReq_sent ha, h⟩
  · exact ⟨m, execReq_rejected ha, h⟩

/-- LOC looks at the buffer through its scan only. -/
theorem execLoc_agree (h : AgreeBelow s.len s.mem m) {g : BitVec 2} (ht : execLoc g s = .next t) :
    AnswersLike t (execLoc g { s with mem := m }) := by
  rcases execLoc_cases g s t ht with ⟨rfl, rfl⟩ | ⟨grp, p, rfl, hcv, hs, rfl⟩ | ⟨grp, rfl, hcv, hs, rfl⟩ |
    ⟨grp, rfl, hcv, rfl⟩
  · exact ⟨m, rfl, h⟩
  · exact ⟨m, execLoc_found (s := { s with mem := m }) hcv ((scan_agree h _ _ _).trans hs), h⟩
  · exact ⟨m, execLoc_notFound (s := { s with mem := m }) hcv ((scan_agree h _ _ _).trans hs), h⟩
  · exact ⟨m, execLoc_noCapture (s := { s with mem := m }) hcv, h⟩

/-- DEC starts without looking at the buffer. -/
theorem execDec_agree (h : AgreeBelow s.len s.mem m) {g : BitVec 2} (ht : execDec g s = .next t) :
    AnswersLike t (execDec g { s with mem := m }) := by
  rcases execDec_cases g s t ht with ⟨rfl, rfl⟩ | ⟨grp, rfl, hpv, hpg, rfl⟩ | ⟨grp, rfl, hno, rfl⟩
  · exact ⟨m, rfl, h⟩
  · exact ⟨m, exec_dec_starts (s := { s with mem := m }) hpv hpg, h⟩
  · exact ⟨m, execDec_noFrame (s := { s with mem := m }) hno, h⟩

/-- A row reads captured bytes only (R62, R198). -/
theorem interpretRow_agree (h : AgreeBelow s.len s.mem m) {ty : TypeTag} {addr : Half}
    (ht : interpretRow ty addr s = .next t) : AnswersLike t (interpretRow ty addr { s with mem := m }) := by
  obtain ⟨g, n, hrun, ⟨hw, rfl⟩ | ⟨hw, hf, rfl⟩ | ⟨hw, hf, bs, hbs, rfl⟩⟩ := interpretRow_cases _ _ _ _ ht
  · exact ⟨m, interpretRow_outside (s := { s with mem := m }) hrun hw, h⟩
  · exact ⟨m, interpretRow_short (s := { s with mem := m }) hrun hw hf, h⟩
  · exact ⟨m, interpretRow_fits (s := { s with mem := m }) hrun hw hf ((memRead_agree h _ _).trans hbs), h⟩

/-- The loop of CAP reads no byte of the buffer (`captureTokens_congr`), so a running CAP ends or waits alike. -/
theorem runCapture_agree (h : AgreeBelow s.len s.mem m) (ht : runCapture s = .next t) :
    AnswersLike t (runCapture { s with mem := m }) := by
  obtain ⟨hloop, hbelow⟩ := captureTokens_congr s.cfg.bufCap s.rx s.mem m s.len h
  rcases runCapture_cases s t ht with ⟨hended, hlen, rfl⟩ | ⟨hended, hlen, rfl⟩ | ⟨hended, rfl⟩
  · have hends := runCapture_short (s := { s with mem := m }) hloop hended hlen
    exact ⟨_, hends, hbelow⟩
  · have hends := runCapture_valid (s := { s with mem := m }) hloop hended hlen
    exact ⟨_, hends, hbelow⟩
  · have hends := runCapture_waiting (s := { s with mem := m }) hloop hended
    exact ⟨_, hends, hbelow⟩

/-- A command reads captured bytes only. -/
theorem exec_agree (h : AgreeBelow s.len s.mem m) {i : Instr} (ht : exec i s = .next t) :
    AnswersLike t (exec i { s with mem := m }) := by
  cases hi : i.isCommand with
  | false =>
    obtain ⟨ty, addr, rfl⟩ := eq_ofRow i hi
    rw [exec_ofRow] at ht ⊢
    exact interpretRow_agree h ht
  | true =>
    cases i with
    | crci => cases ht; exact ⟨m, rfl, h⟩
    | crcb a => cases ht; exact ⟨m, rfl, h⟩
    | crcr => cases ht; exact ⟨m, rfl, h⟩
    | stat => cases ht; exact ⟨m, rfl, h⟩
    | req a g => exact execReq_agree h ht
    | cap => exact runCapture_agree (s := beginCapture s) (fun a ha => absurd ha (Nat.not_lt_zero a)) ht
    | loc g => exact execLoc_agree h ht
    | dec g => exact execDec_agree h ht
    | _ => cases hi

end AnswersLike

/-- Settles O56: each kind of step is taken from the second state too, and ends alike (`exec_agree`,
`runCapture_agree`, `interpretRow_agree`). -/
theorem bytesBeyondLenAreNotRead : Obligations.BytesBeyondLenAreNotRead := by
  intro s t m h hstep
  change AnswersLike t (step { s with mem := m })
  cases step_cases s t hstep with
  | reset hr ht =>
    subst ht
    exact ⟨[], by simp [step, hr, resetUnit], fun _ _ => rfl⟩
  | waiting hr hrun hc ht =>
    subst ht
    exact ⟨m, step_of_noCommand hr hrun hc, h⟩
  | illegal w ws e hr hrun hc hd ht =>
    subst ht
    exact ⟨m, step_of_badCommand (s := { s with mem := m }) hr hrun hc hd, h⟩
  | command w ws i hr hrun hc hd ht =>
    rw [step_of_command (s := { s with mem := m }) hr hrun hc hd]
    exact exec_agree (s := { s with cmd := ws }) h ht
  | capture hr hrun ht =>
    rw [step_of_capturing { s with mem := m } hr hrun]
    exact runCapture_agree h ht
  | finish g n hr hrun hc ht =>
    subst ht
    exact ⟨m, step_of_noRow (s := { s with mem := m }) hr hrun hc, h⟩
  | row g n d ty hr hrun hc hd ht =>
    rw [step_of_row (s := { s with mem := m }) hr hrun hc hd]
    exact interpretRow_agree h ht

end Sys2Proof.Machine
end

section
/-! SUPPORT. The proofs about the response buffer (spec 20_memory.md): who writes it, where a read of a missing byte
stops, and that no step from a state with the invariant stops. -/

namespace Sys2Proof.Machine

/-! ### Reads of a missing byte -/

/-- A read of several bytes faults at the first of its indices that holds no value (log entry 7). -/
theorem readBytes_missing (m : Memory) (a n k : Nat) (hk : k < n) (hnone : Memory.read? m (a + k) = none)
    (hsome : ∀ j, j < k → (Memory.read? m (a + j)).isSome = true) :
    readBytes m a n = .error (.unwrittenByte (a + k)) := by
  induction n generalizing a k with
  | zero => exact absurd hk (Nat.not_lt_zero k)
  | succ n ih =>
    cases k with
    | zero =>
      rw [Nat.add_zero] at hnone
      simp only [readBytes, hnone, Nat.add_zero]
    | succ k =>
      obtain ⟨b, hb⟩ := Option.isSome_iff_exists.1 (hsome 0 (Nat.succ_pos k))
      have hshift : ∀ j, a + 1 + j = a + (j + 1) := fun j => by omega
      have hrest := ih (a + 1) k (by omega) (by rwa [hshift]) fun j hj => by
        rw [hshift]; exact hsome (j + 1) (by omega)
      rw [Nat.add_zero] at hb
      simp only [readBytes, hb, hrest, hshift]

section MissingByte

variable {s : State} {g : Group} {n : Half} {f : Fault}

/-- A row in the window that fits faults with the read of its field (log entry 7). -/
theorem interpretRow_fault {t : TypeTag} {addr : Half} (hrun : s.run = .decoding g n)
    (hw : inWindow (groupRecord s.cfg g).base addr = true)
    (hf : (addr - (groupRecord s.cfg g).base).toNat + rowWidth t ≤ avail s)
    (hm : memRead s (s.poff.toNat + (addr - (groupRecord s.cfg g).base).toNat) (rowWidth t) = .error f) :
    interpretRow t addr s = .fault f := by
  simp only [interpretRow, hrun, hw, if_true, if_pos hf, hm]

/-- The scan faults with the read of its first position (log entry 7). -/
theorem scan_fault {gid : Half} {k p : Nat} (hk : 0 < k) (hm : memRead s p frameOverhead = .error f) :
    scan s gid k p = .error f := by
  cases k with
  | zero => exact absurd hk (Nat.lt_irrefl 0)
  | succ k => simp only [scan, hm]

/-- LOC over a valid capture faults with its scan. -/
theorem execLoc_fault (hcv : s.cv = true)
    (hs : scan s (groupRecord s.cfg g).gid (scanCount s) 0 = .error f) : execLoc (groupBits g) s = .fault f := by
  simp only [execLoc, groupOf_groupBits, hcv, if_true, hs]

end MissingByte

/-- Settles O60: the bytes of the field, or of the scan's first position, lie below `len`, so their read looks at each
index in turn and faults at the missing one (`readBytes_missing`); the row or the scan faults with it. -/
theorem missingByteFaults : Obligations.MissingByteFaults := by
  refine ⟨fun s t addr g n base roff k hrun hbase haddr hroff hfits hk hnone hsome => ?_,
    fun s g k hcv hlen hk hnone hsome => ?_⟩
  · have hw : inWindow (groupRecord s.cfg g).base addr = true := by rw [inWindow_iff]; omega
    have hoff : (addr - (groupRecord s.cfg g).base).toNat = roff := by rw [roff_toNat _ _ (by omega)]; omega
    have hin : s.poff.toNat + roff + rowWidth t ≤ s.len.toNat := by omega
    have hread : memRead s (s.poff.toNat + roff) (rowWidth t) = .error (.unwrittenByte (s.poff.toNat + roff + k)) :=
      (memRead_inside s _ _ hin).trans (readBytes_missing _ _ _ _ hk hnone hsome)
    rw [exec_ofRow]
    exact interpretRow_fault hrun hw (by rw [hoff]; exact hfits) (by rw [hoff]; exact hread)
  · have hcount : 0 < scanCount s := Nat.sub_pos_of_lt hlen
    have hread : memRead s 0 frameOverhead = .error (.unwrittenByte (0 + k)) :=
      (memRead_inside s _ _ (by rw [frameOverhead]; omega)).trans
        (readBytes_missing _ _ _ _ hk (by rwa [Nat.zero_add]) fun j hj => by rw [Nat.zero_add]; exact hsome j hj)
    rw [Nat.zero_add] at hread
    exact execLoc_fault hcv (scan_fault hcount hread)

/-! ### No step stops -/

/-- With reset asserted a step resets the unit (R280). -/
theorem step_of_reset {s : State} (hr : s.rst = true) : step s = .next (resetUnit s) := if_pos hr

/-- A group field is the illegal 0 or names a group (R94). -/
theorem group_cases (g : BitVec 2) : g = 0#2 ∨ ∃ grp, g = groupBits grp := by
  cases h : groupOf g with
  | none => exact .inl (groupOf_none g h)
  | some grp => exact .inr ⟨grp, groupOf_some g grp h⟩

section NeverStops

variable {s : State}

/-- Captured bytes can be read (R62). -/
theorem InvAtRest.memRead_isOk (h : InvAtRest s) {a n : Nat} (hin : a + n ≤ s.len.toNat) :
    ∃ m, memRead s a n = .ok m := by
  rw [memRead_inside s a n hin]
  exact readBytes_isOk _ _ _ fun k hk => h.captured _ (show a + k < s.len.toNat by omega)

/-- The scan of LOC stays below `len` (R182), so it answers. -/
theorem InvAtRest.scan_isOk (h : InvAtRest s) (gid : Half) : ∃ o, scan s gid (scanCount s) 0 = .ok o :=
  Machine.scan_isOk s gid _ _ fun r _ hr => h.memRead_isOk (by rw [scanCount, frameOverhead] at hr; omega)

/-- REQ always answers. -/
theorem execReq_next (a : Byte) (g : BitVec 2) (s : State) : ∃ t, execReq a g s = .next t := by
  rcases group_cases g with rfl | ⟨grp, rfl⟩
  · exact ⟨_, rfl⟩
  · cases ha : addressOk a with
    | true => exact ⟨_, execReq_sent ha⟩
    | false => exact ⟨_, execReq_rejected ha⟩

/-- LOC answers when its scan does. -/
theorem InvAtRest.execLoc_next (h : InvAtRest s) (g : BitVec 2) : ∃ t, execLoc g s = .next t := by
  rcases group_cases g with rfl | ⟨grp, rfl⟩
  · exact ⟨_, rfl⟩
  · cases hcv : s.cv with
    | false => exact ⟨_, execLoc_noCapture hcv⟩
    | true =>
      obtain ⟨o, ho⟩ := h.scan_isOk (groupRecord s.cfg grp).gid
      cases o with
      | none => exact ⟨_, execLoc_notFound hcv ho⟩
      | some p => exact ⟨_, execLoc_found hcv ho⟩

/-- DEC always starts or raises an error. -/
theorem execDec_next (g : BitVec 2) (s : State) : ∃ t, execDec g s = .next t := by
  rcases group_cases g with rfl | ⟨grp, rfl⟩
  · exact ⟨_, rfl⟩
  · by_cases hlocated : s.pv = true ∧ s.pg = groupBits grp
    · exact ⟨_, exec_dec_starts hlocated.1 hlocated.2⟩
    · refine ⟨_, execDec_noFrame ?_⟩
      rwa [not_and_or, Bool.not_eq_true] at hlocated

/-- A command answers. -/
theorem InvAtRest.command_next (h : InvAtRest s) {w : Word} {i : Instr} (hd : decodeCommand w = .ok i) :
    ∃ t, exec i s = .next t := by
  obtain ⟨-, hform⟩ := decodeCommand_ok w i hd
  rcases hform with ⟨-, -, -, rfl⟩ | ⟨-, -, rfl⟩ | ⟨-, -, -, rfl⟩ | ⟨-, -, -, rfl⟩ | ⟨-, rfl⟩ | ⟨-, -, -, rfl⟩ |
    ⟨-, -, rfl⟩ | ⟨-, -, rfl⟩
  · exact ⟨_, rfl⟩
  · exact ⟨_, rfl⟩
  · exact ⟨_, rfl⟩
  · exact ⟨_, rfl⟩
  · exact execReq_next _ _ s
  · exact runCapture_next _
  · exact h.execLoc_next _
  · exact execDec_next _ s

/-- A row of a running DEC answers: a field that fits lies in the captured data (R198). -/
theorem InvAtRest.interpretRow_next (h : InvAtRest s) {g : Group} {n : Half} (hrun : s.run = .decoding g n)
    (ty : TypeTag) (addr : Half) : ∃ t, interpretRow ty addr s = .next t := by
  cases hw : inWindow (groupRecord s.cfg g).base addr with
  | false => exact ⟨_, interpretRow_outside hrun hw⟩
  | true =>
    rcases Nat.lt_or_ge (avail s) ((addr - (groupRecord s.cfg g).base).toNat + rowWidth ty) with hf | hf
    · exact ⟨_, interpretRow_short hrun hw hf⟩
    · have hpos := rowWidth_pos ty
      have havail : avail s = s.len.toNat - s.poff.toNat := rfl
      obtain ⟨m, hm⟩ := h.memRead_isOk
        (a := s.poff.toNat + (addr - (groupRecord s.cfg g).base).toNat) (n := rowWidth ty) (by omega)
      exact ⟨_, interpretRow_fits hrun hw hf hm⟩

/-- The rows of the catalogue decode (R101). -/
theorem Inv.row_decodes (h : Inv s) {d : Word} (hc : s.cfg.catalog[s.cidx.toNat]? = some d) :
    ∃ ty, decodeDescriptor d = .ok (Instr.ofRow ty (rowAddrOf d)) := by
  obtain ⟨-, -, -, hrows⟩ := wellFormed_bounds _ h.params
  obtain ⟨ty, -, hd⟩ := decodeDescriptor_of_ok d (hrows d (List.mem_of_getElem? hc))
  exact ⟨ty, hd⟩

end NeverStops

/-- Settles O5, by the command in progress: every word and every row answers (`InvAtRest.command_next`,
`InvAtRest.interpretRow_next`), and so does a running CAP (`runCapture_next`). -/
theorem stepNeverStops : Obligations.StepNeverStops := by
  intro s h
  cases hr : s.rst with
  | true => exact ⟨_, step_of_reset hr⟩
  | false =>
    cases hrun : s.run with
    | idle =>
      cases hc : s.cmd with
      | nil => exact ⟨s, step_of_noCommand hr hrun hc⟩
      | cons w ws =>
        cases hd : decodeCommand w with
        | error e => exact ⟨_, step_of_badCommand hr hrun hc hd⟩
        | ok i =>
          rw [step_of_command hr hrun hc hd]
          exact (h.atRest.setCmd ws).command_next hd
    | capturing =>
      rw [step_of_capturing s hr hrun]
      exact runCapture_next s
    | decoding g n =>
      cases hc : s.cfg.catalog[s.cidx.toNat]? with
      | none => exact ⟨_, step_of_noRow hr hrun hc⟩
      | some d =>
        obtain ⟨ty, hd⟩ := h.row_decodes hc
        rw [step_of_row hr hrun hc hd]
        exact h.atRest.interpretRow_next hrun ty (rowAddrOf d)

/-! ### Who writes the buffer -/

/-- A step of a running CAP leaves every index at or above BUF_CAP (R63). -/
theorem runCapture_above {s t : State} (h : runCapture s = .next t) {a : Nat} (ha : s.cfg.bufCap ≤ a) :
    Memory.read? t.mem a = Memory.read? s.mem a := by
  have hloop := captureTokens_above s.cfg.bufCap s.rx s.mem s.len a ha
  rcases runCapture_cases s t h with ⟨-, -, rfl⟩ | ⟨-, -, rfl⟩ | ⟨-, rfl⟩ <;> exact hloop

/-- A row does not write the buffer. -/
theorem interpretRow_mem {ty : TypeTag} {addr : Half} {s t : State} (h : interpretRow ty addr s = .next t) :
    t.mem = s.mem := by
  obtain ⟨g, n, -, ⟨-, rfl⟩ | ⟨-, -, rfl⟩ | ⟨-, -, m, -, rfl⟩⟩ := interpretRow_cases _ _ _ _ h <;> rfl

/-- No instruction but CAP writes the buffer (R63). -/
theorem exec_mem {i : Instr} {s t : State} (hi : i ≠ .cap) (h : exec i s = .next t) : t.mem = s.mem := by
  cases hcommand : i.isCommand with
  | false =>
    obtain ⟨ty, addr, rfl⟩ := eq_ofRow i hcommand
    exact interpretRow_mem ((exec_ofRow ty addr s).symm.trans h)
  | true =>
    cases i with
    | crci => cases h; rfl
    | crcb a => cases h; rfl
    | crcr => cases h; rfl
    | stat => cases h; rfl
    | req a g => rcases execReq_cases a g s t h with ⟨-, rfl⟩ | ⟨_, -, -, rfl⟩ | ⟨_, -, -, rfl⟩ <;> rfl
    | cap => exact absurd rfl hi
    | loc g =>
      rcases execLoc_cases g s t h with ⟨-, rfl⟩ | ⟨_, _, -, -, -, rfl⟩ | ⟨_, -, -, -, rfl⟩ | ⟨_, -, -, rfl⟩ <;> rfl
    | dec g => rcases execDec_cases g s t h with ⟨-, rfl⟩ | ⟨_, -, -, -, rfl⟩ | ⟨_, -, -, rfl⟩ <;> rfl
    | _ => cases hcommand

/-- The loop of CAP that a step from `s` to `t` ran: the rest of a waiting CAP, or the CAP taken from CMD. -/
inductive RunsCap (s t : State) : Prop where
  | waiting (hrun : s.run = .capturing) (ht : runCapture s = .next t)
  | taken (ws : List Word) (hrun : s.run = .idle) (hc : s.cmd = encode .cap :: ws)
      (ht : runCapture (beginCapture { s with cmd := ws }) = .next t)

/-- Without reset, a step that runs no CAP leaves the buffer. -/
theorem step_mem {s t : State} (hr : s.rst = false) (h : step s = .next t) : t.mem = s.mem ∨ RunsCap s t := by
  cases step_cases s t h with
  | reset hrst => simp [hr] at hrst
  | command w ws i _ hrun hc hd ht =>
    by_cases hi : i = .cap
    · subst hi
      exact .inr (.taken ws hrun (encode_of_decodeCommand hd ▸ hc) ht)
    · exact .inl (exec_mem (s := { s with cmd := ws }) hi ht)
  | capture _ hrun ht => exact .inr (.waiting hrun ht)
  | row g n d ty _ _ _ _ ht => exact .inl (interpretRow_mem ht)
  | _ => subst_vars; exact .inl rfl

/-- Settles O55: a step leaves the buffer or runs a CAP (`step_mem`), whose loop stays below BUF_CAP
(`runCapture_above`). -/
theorem onlyCapWritesBuffer : Obligations.OnlyCapWritesBuffer := by
  intro s t hr h
  rcases step_mem hr h with hmem | ⟨hrun, ht⟩ | ⟨ws, hrun, hc, ht⟩
  · exact ⟨fun hne => absurd hmem hne, fun a _ => by rw [hmem]⟩
  · exact ⟨fun _ => .inl hrun, fun a ha => runCapture_above ht ha⟩
  · exact ⟨fun _ => .inr ⟨hrun, ws, hc⟩,
      fun a ha => runCapture_above (s := beginCapture { s with cmd := ws }) ht ha⟩

end Sys2Proof.Machine
end

section
/-! SUPPORT. The proofs about the encoding (spec 30_encoding.md): the two levels of words and their instructions, which
command words are legal and what the others do, the request frame, and the order of the tokens of a capture. -/

namespace Sys2Proof.Machine

/-! ### Words and their instructions -/

/-- The word of a command decodes to it (R92). -/
theorem decodeCommand_encode {i : Instr} (h : i.isCommand = true) : decodeCommand (encode i) = .ok i := by
  cases i with
  | crci => simp [encode, decodeCommand, decodePlain]
  | crcb a => simp [encode, decodeCommand]
  | crcr => simp [encode, decodeCommand, decodePlain]
  | stat => simp [encode, decodeCommand, decodePlain]
  | req a g => simp [encode, decodeCommand]
  | cap => simp [encode, decodeCommand, decodePlain]
  | loc g => simp [encode, decodeCommand]
  | dec g => simp [encode, decodeCommand]
  | _ => cases h

/-- A command word decodes to a command. -/
theorem isCommand_of_decodeCommand {w : Word} {i : Instr} (h : decodeCommand w = .ok i) : i.isCommand = true := by
  obtain ⟨-, hform⟩ := decodeCommand_ok w i h
  rcases hform with ⟨-, -, -, rfl⟩ | ⟨-, -, rfl⟩ | ⟨-, -, -, rfl⟩ | ⟨-, -, -, rfl⟩ | ⟨-, rfl⟩ | ⟨-, -, -, rfl⟩ |
    ⟨-, -, rfl⟩ | ⟨-, -, rfl⟩ <;> rfl

/-- At the command level decoding inverts encoding, on exactly the words of commands (R92, R94). -/
theorem decodeCommand_eq_ok_iff {w : Word} {i : Instr} :
    decodeCommand w = .ok i ↔ i.isCommand = true ∧ encode i = w := by
  constructor
  · exact fun h => ⟨isCommand_of_decodeCommand h, encode_of_decodeCommand h⟩
  · rintro ⟨hcommand, rfl⟩
    exact decodeCommand_encode hcommand

/-- At the row level decoding inverts encoding, on exactly the words of rows (R98, R100). -/
theorem decodeDescriptor_eq_ok_iff {d : Word} {i : Instr} :
    decodeDescriptor d = .ok i ↔ i.isCommand = false ∧ encode i = d := by
  constructor
  · intro h
    obtain ⟨t, hrsv, htag, rfl⟩ := decodeDescriptor_ok d i h
    exact ⟨isCommand_ofRow _ _, (encode_ofRow _ _).trans (descriptorWord_fields d t hrsv htag)⟩
  · rintro ⟨hrow, rfl⟩
    obtain ⟨t, addr, rfl⟩ := eq_ofRow i hrow
    simp [decodeDescriptor]

/-- Settles O9, by the inversion at each level. -/
theorem decodeOfEncode : Obligations.DecodeOfEncode :=
  fun _ => ⟨decodeCommand_encode, fun hrow => decodeDescriptor_eq_ok_iff.2 ⟨hrow, rfl⟩⟩

/-- Settles O10, by the inversion at each level. -/
theorem encodeOfDecode : Obligations.EncodeOfDecode :=
  fun _ _ => ⟨decodeCommand_eq_ok_iff.1, decodeDescriptor_eq_ok_iff.1⟩

/-- Settles O14: the six words are the encodings of their instructions; the two others are refused by their fields. -/
theorem writtenWordsDecode : Obligations.WrittenWordsDecode := by
  refine ⟨decodeCommand_eq_ok_iff.2 ?_, decodeCommand_eq_ok_iff.2 ?_, decodeCommand_eq_ok_iff.2 ?_,
    decodeCommand_eq_ok_iff.2 ?_, decodeDescriptor_eq_ok_iff.2 ?_, decodeDescriptor_eq_ok_iff.2 ?_, ?_, ?_⟩ <;> decide

/-! ### Legal command words -/

/-- Which words made of command fields are legal (R92, R94). -/
theorem legalCommandWord_commandWord (opc a : Byte) (g : BitVec 2) :
    LegalCommandWord (commandWord opc a g) ↔
      (opc ∈ [0x01#8, 0x03#8, 0x04#8, 0x11#8] ∧ a = 0#8 ∧ g = 0#2) ∨ (opc = 0x02#8 ∧ g = 0#2) ∨
      (opc = 0x10#8 ∧ g ≠ 0#2) ∨ (opc ∈ [0x12#8, 0x13#8] ∧ a = 0#8 ∧ g ≠ 0#2) := by
  change rsvOf _ = 0#14 ∧
    ((opcOf _ ∈ _ ∧ aOf _ = 0#8 ∧ gOf _ = 0#2) ∨ (opcOf _ = 0x02#8 ∧ gOf _ = 0#2) ∨
      (opcOf _ = 0x10#8 ∧ gOf _ ≠ 0#2) ∨ (opcOf _ ∈ _ ∧ aOf _ = 0#8 ∧ gOf _ ≠ 0#2)) ↔ _
  rw [opcOf_commandWord, aOf_commandWord, gOf_commandWord, rsvOf_commandWord, eq_self, true_and]

/-- The word of a command is legal when its group operand is not 0 (R94). -/
theorem legalCommandWord_encode {i : Instr} (h : i.isCommand = true) :
    LegalCommandWord (encode i) ↔ i.wellFormed = true := by
  cases i with
  | crci => simp [encode, legalCommandWord_commandWord, Instr.wellFormed]
  | crcb a => simp [encode, legalCommandWord_commandWord, Instr.wellFormed]
  | crcr => simp [encode, legalCommandWord_commandWord, Instr.wellFormed]
  | stat => simp [encode, legalCommandWord_commandWord, Instr.wellFormed]
  | req a g => simp [encode, legalCommandWord_commandWord, Instr.wellFormed]
  | cap => simp [encode, legalCommandWord_commandWord, Instr.wellFormed]
  | loc g => simp [encode, legalCommandWord_commandWord, Instr.wellFormed]
  | dec g => simp [encode, legalCommandWord_commandWord, Instr.wellFormed]
  | _ => cases h

/-- A legal word is the word of a command (R92). -/
theorem LegalCommandWord.exists_encode {w : Word} (h : LegalCommandWord w) :
    ∃ i : Instr, i.isCommand = true ∧ encode i = w := by
  have hw := commandWord_fields w h.1
  rw [← hw, legalCommandWord_commandWord] at h
  rcases h with ⟨ho, ha, hg⟩ | ⟨ho, hg⟩ | ⟨ho, -⟩ | ⟨ho, ha, -⟩
  · rw [ha, hg] at hw
    simp only [List.mem_cons, List.not_mem_nil, or_false] at ho
    rcases ho with ho | ho | ho | ho <;> rw [ho] at hw
    · exact ⟨.crci, rfl, hw⟩
    · exact ⟨.crcr, rfl, hw⟩
    · exact ⟨.stat, rfl, hw⟩
    · exact ⟨.cap, rfl, hw⟩
  · rw [ho, hg] at hw
    exact ⟨.crcb (aOf w), rfl, hw⟩
  · rw [ho] at hw
    exact ⟨.req (aOf w) (gOf w), rfl, hw⟩
  · rw [ha] at hw
    simp only [List.mem_cons, List.not_mem_nil, or_false] at ho
    rcases ho with ho | ho <;> rw [ho] at hw
    · exact ⟨.loc (gOf w), rfl, hw⟩
    · exact ⟨.dec (gOf w), rfl, hw⟩

/-- Settles O11: a legal word is the word of a command (`LegalCommandWord.exists_encode`), and the word of a command is
legal exactly when the command is well formed (`legalCommandWord_encode`). -/
theorem legalWordsDecode : Obligations.LegalWordsDecode := by
  intro w
  constructor
  · intro hlegal
    obtain ⟨i, hcommand, rfl⟩ := hlegal.exists_encode
    exact ⟨i, decodeCommand_encode hcommand, (legalCommandWord_encode hcommand).1 hlegal⟩
  · rintro ⟨i, hd, hwf⟩
    obtain ⟨hcommand, rfl⟩ := decodeCommand_eq_ok_iff.1 hd
    exact (legalCommandWord_encode hcommand).2 hwf

/-! ### Illegal command words -/

/-- An instruction with an ill-formed operand raises IllegalCommand before anything else (R94, R245). -/
theorem exec_illFormed {i : Instr} (h : i.wellFormed = false) (s : State) : exec i s = .next (raiseIllegal s) := by
  cases i with
  | req a g | loc g | dec g =>
    obtain rfl : g = 0#2 := by simpa [Instr.wellFormed] using h
    rfl
  | _ => cases h

/-- With no command running, a word that is not legal is taken and raises IllegalCommand, whether it fails to decode or
decodes to an ill-formed command (R94, log entry 8). -/
theorem step_of_illegalWord {s : State} {w : Word} {ws : List Word} (hr : s.rst = false) (hrun : s.run = .idle)
    (hc : s.cmd = w :: ws) (hbad : ¬ LegalCommandWord w) :
    step s = .next (raiseIllegal { s with cmd := ws }) := by
  cases hd : decodeCommand w with
  | error e => exact step_of_badCommand hr hrun hc hd
  | ok i =>
    have hwf : i.wellFormed = false :=
      eq_false_of_ne_true fun hwf => hbad ((legalWordsDecode w).2 ⟨i, hd, hwf⟩)
    rw [step_of_command hr hrun hc hd, exec_illFormed hwf]

/-- Settles O12, by `step_of_illegalWord`; the unit was idle, so raising leaves `run` as it was. -/
theorem illegalWordRaises : Obligations.IllegalWordRaises := by
  intro s w ws hr hrun hc hbad
  rw [step_of_illegalWord hr hrun hc hbad, raiseIllegal, raise, ← hrun]
  rfl

/-- Settles O13: the operand 0 is ill formed in each of the three commands (`exec_illFormed`). -/
theorem groupZeroRaisesIllegal : Obligations.GroupZeroRaisesIllegal := by
  rintro s i (⟨a, rfl⟩ | rfl | rfl) <;> exact exec_illFormed rfl s

/-! ### The request frame -/

/-- The addresses REQ accepts are 1 to 15 (R152). -/
theorem addressOk_iff (a : Byte) : addressOk a = true ↔ 1 ≤ a.toNat ∧ a.toNat ≤ 15 := by
  rw [addressOk, Bool.and_eq_true, decide_eq_true_eq, decide_eq_true_eq]

/-- Settles O22: the selector is the group table's, so the bytes are those of the head and its CRC
(`requestFrame_toList`), and the vector that lists them is the frame REQ sends (`execReq_sent`). -/
theorem reqSendsFrame : Obligations.ReqSendsFrame := by
  intro s a g sel c f hmin hmax hsel hc hf
  obtain rfl : sel = (groupRecord s.cfg g).sel := by cases g <;> exact hsel
  obtain rfl : c = requestCrc s.cfg a g := hc
  obtain rfl : f = requestFrame s.cfg a g := Vector.toList_inj.1 (hf.trans (requestFrame_toList s.cfg a g).symm)
  exact execReq_sent ((addressOk_iff a).2 ⟨hmin, hmax⟩)

/-! ### The order of the tokens of a capture -/

/-- The end of a running CAP depends on its buffer and its tokens only through what the capture loop leaves. -/
theorem runCapture_congr {s u : State} (hframe : u = { s with mem := u.mem, len := u.len, rx := u.rx, run := u.run })
    (hloop : captureTokens u.cfg.bufCap u.rx u.mem u.len = captureTokens s.cfg.bufCap s.rx s.mem s.len) :
    runCapture u = runCapture s := by
  obtain ⟨t, ht⟩ := runCapture_next s
  rw [ht]
  rcases runCapture_cases s t ht with ⟨hended, hlen, rfl⟩ | ⟨hended, hlen, rfl⟩ | ⟨hended, rfl⟩
  · rw [runCapture_short hloop hended hlen, hframe]; rfl
  · rw [runCapture_valid hloop hended hlen, hframe]; rfl
  · rw [runCapture_waiting hloop hended, hframe]; rfl

/-- A running CAP that found more tokens on RX: where it waited without them it goes on with them, and where it ended
without them it leaves them on RX (R166). -/
theorem runCapture_deliver {s t : State} (us : List Token) (h : runCapture s = .next t) :
    (t.run = .capturing → runCapture (deliver us s) = runCapture (deliver us t)) ∧
      (t.run ≠ .capturing → runCapture (deliver us s) = .next (deliver us t)) := by
  have happend := captureTokens_append s.cfg.bufCap s.rx us s.mem s.len
  rcases runCapture_cases s t h with ⟨hended, hlen, rfl⟩ | ⟨hended, hlen, rfl⟩ | ⟨hended, rfl⟩
  · rw [if_pos hended] at happend
    exact ⟨fun hrun => (nomatch hrun), fun _ => runCapture_short (s := deliver us s) happend hended hlen⟩
  · rw [if_pos hended] at happend
    exact ⟨fun hrun => (nomatch hrun), fun _ => runCapture_valid (s := deliver us s) happend hended hlen⟩
  · obtain ⟨htaken, -⟩ := captureTokens_waiting _ _ _ _ hended
    rw [if_neg (by rw [hended]; decide)] at happend
    refine ⟨fun _ => (runCapture_congr rfl ?_).symm, fun hrun => absurd rfl hrun⟩
    rw [deliver_rx, withCaptured_rx, htaken]
    exact happend.symm

/-- Settles O29: a CAP begins as a running CAP with the tokens at hand, to which `runCapture_deliver` adds the others. -/
theorem capIgnoresArrivalTime : Obligations.CapIgnoresArrivalTime := by
  intro s t ts us hr ht
  obtain ⟨hwaiting, hended⟩ := runCapture_deliver us (s := beginCapture { s with rx := ts }) ht
  have hrst : t.rst = false := by rw [(runCapture_fields _ t ht).1]; exact hr
  exact ⟨fun hrun => (hwaiting hrun).trans (step_of_capturing (deliver us t) hrst hrun).symm, hended⟩

end Sys2Proof.Machine
end

section
/-! SUPPORT. The proofs about the CRC-16 engine (spec 40_crc.md): its three commands, a span fed command by command, the
table against its generating law, the table step against the bit-serial engine, and a message with its own CRC. -/

namespace Sys2Proof.Machine

/-! ### The three commands -/

/-- The number a command word is, from its fields (R91). -/
theorem toNat_commandWord (opc a : Byte) (g : BitVec 2) :
    (commandWord opc a g).toNat = opc.toNat + a.toNat * 2 ^ 8 + g.toNat * 2 ^ 16 := by
  rw [commandWord, BitVec.toNat_append, BitVec.toNat_append, BitVec.toNat_append,
    ← Nat.shiftLeft_add_eq_or_of_lt opc.isLt, ← Nat.shiftLeft_add_eq_or_of_lt a.isLt,
    ← Nat.shiftLeft_add_eq_or_of_lt g.isLt]
  simp only [Nat.shiftLeft_eq, BitVec.toNat_ofNat]
  omega

/-- R131's formula over the table, its index as a number. -/
theorem crcStep_eq_table (r : Half) (b : Byte) :
    crcStep r b = ((r ^^^ b.setWidth 16) >>> 8) ^^^ crcTable.getD ((r ^^^ b.setWidth 16).toNat % 256) 0#16 := by
  rw [crcStep, crct, BitVec.toNat_setWidth]

theorem exec_crci (s : State) : exec .crci s = .next (complete crcInit { s with crc := crcInit }) := rfl

theorem exec_crcb (a : Byte) (s : State) :
    exec (.crcb a) s = .next (complete (crcStep s.crc a) { s with crc := crcStep s.crc a }) := rfl

theorem exec_crcr (s : State) : exec .crcr s = .next (complete s.crc s) := rfl

/-- Settles O16: the word is made of its fields, the effect is `exec_crci`. -/
theorem crciResult : Obligations.CrciResult := ⟨by decide, exec_crci⟩

/-- Settles O17: the word is the sum of its fields (`toNat_commandWord`), and the register is the table's
(`crcStep_eq_table`). -/
theorem crcbResult : Obligations.CrcbResult := by
  refine ⟨fun a => ?_, fun s a t c ht hc => ?_⟩
  · rw [encode, toNat_commandWord, BitVec.toNat_zero, Nat.zero_mul, Nat.add_zero]; rfl
  · obtain rfl : c = crcStep s.crc a := by rw [hc, ht, crcStep_eq_table]
    exact exec_crcb a s

/-- Settles O18: the word is made of its fields, the effect is `exec_crcr`. -/
theorem crcrResult : Obligations.CrcrResult := ⟨by decide, exec_crcr⟩

/-! ### A span fed command by command -/

/-- What a CRC command leaves: the register at `c`, which is also the result of its completion, and CMD at `ws`. -/
def crcAnswered (c : Half) (ws : List Word) (s : State) : State :=
  { s with crc := c, cmd := ws, cpl := s.cpl ++ [{ err := 0#4, result := c }] }

section CrcCommands

variable {s : State} {ws : List Word}

/-- A step with a command at the head of CMD that completes with the register it leaves. -/
theorem step_eq_crcAnswered {i : Instr} {c : Half} (hr : s.rst = false) (hrun : s.run = .idle)
    (hi : i.isCommand = true) (hc : s.cmd = encode i :: ws)
    (hexec : exec i { s with cmd := ws } = .next (complete c { s with crc := c, cmd := ws })) :
    step s = .next (crcAnswered c ws s) := by
  rw [step_of_command hr hrun hc (decodeCommand_encode hi), hexec, complete, crcAnswered, hrun]

theorem step_of_crci (hr : s.rst = false) (hrun : s.run = .idle) (hc : s.cmd = encode .crci :: ws) :
    step s = .next (crcAnswered crcInit ws s) :=
  step_eq_crcAnswered hr hrun rfl hc (exec_crci _)

theorem step_of_crcb {b : Byte} (hr : s.rst = false) (hrun : s.run = .idle) (hc : s.cmd = encode (.crcb b) :: ws) :
    step s = .next (crcAnswered (crcStep s.crc b) ws s) :=
  step_eq_crcAnswered hr hrun rfl hc (exec_crcb _ _)

theorem step_of_crcr (hr : s.rst = false) (hrun : s.run = .idle) (hc : s.cmd = encode .crcr :: ws) :
    step s = .next (crcAnswered s.crc ws s) :=
  step_eq_crcAnswered hr hrun rfl hc (exec_crcr _)

end CrcCommands

/-- The completions of one CRCB per byte, from register value `r` on (R135). -/
def crcbCompletions : Half → List Byte → List Completion
  | _, [] => []
  | r, b :: bs => { err := 0#4, result := crcStep r b } :: crcbCompletions (crcStep r b) bs

theorem length_crcbCompletions (r : Half) (bs : List Byte) : (crcbCompletions r bs).length = bs.length := by
  induction bs generalizing r with
  | nil => rfl
  | cons b bs ih => rw [crcbCompletions, List.length_cons, List.length_cons, ih]

theorem err_of_mem_crcbCompletions {r : Half} {bs : List Byte} {c : Completion} (h : c ∈ crcbCompletions r bs) :
    c.err = 0#4 := by
  induction bs generalizing r with
  | nil => cases h
  | cons b bs ih =>
    rcases List.mem_cons.1 h with rfl | h
    · rfl
    · exact ih h

/-- What one CRCB per byte leaves: the register fed with the bytes, and CMD at `ws`. -/
def crcbAnswered (bs : List Byte) (ws : List Word) (s : State) : State :=
  { s with crc := crcFeed s.crc bs, cmd := ws, cpl := s.cpl ++ crcbCompletions s.crc bs }

theorem crcbAnswered_nil (s : State) : crcbAnswered [] s.cmd s = s := by
  rw [crcbAnswered, crcFeed_nil, crcbCompletions, List.append_nil]

theorem crcbAnswered_cons (b : Byte) (bs : List Byte) (vs ws : List Word) (s : State) :
    crcbAnswered bs ws (crcAnswered (crcStep s.crc b) vs s) = crcbAnswered (b :: bs) ws s := by
  simp only [crcbAnswered, crcAnswered, crcFeed_cons, crcbCompletions, List.append_assoc, List.singleton_append]

/-- One CRCB per byte feeds the bytes to the register, by induction on the bytes (R137). -/
theorem steps_crcb (s : State) {bs : List Byte} {ws : List Word} (hr : s.rst = false) (hrun : s.run = .idle)
    (hc : s.cmd = (bs.map fun b => encode (.crcb b)) ++ ws) : steps bs.length s = .next (crcbAnswered bs ws s) := by
  induction bs generalizing s with
  | nil =>
    obtain rfl : s.cmd = ws := hc
    rw [List.length_nil, steps_zero, crcbAnswered_nil]
  | cons b bs ih =>
    rw [List.map_cons, List.cons_append] at hc
    rw [List.length_cons, steps_succ _ _ _ (step_of_crcb hr hrun hc), ih (crcAnswered _ _ s) hr hrun rfl,
      crcbAnswered_cons]

/-- CRCI, one CRCB per byte and CRCR run through: the three parts one after the other (R137). -/
theorem steps_crcSpan {s : State} {bs : List Byte} {ws : List Word} (hr : s.rst = false) (hrun : s.run = .idle)
    (hc : s.cmd = encode .crci :: (bs.map fun b => encode (.crcb b)) ++ encode .crcr :: ws) :
    steps (bs.length + 2) s = .next { s with
      crc := crc16 bs
      cmd := ws
      cpl := s.cpl ++ ({ err := 0#4, result := crcInit } :: crcbCompletions crcInit bs) ++
        [{ err := 0#4, result := crc16 bs }] } := by
  rw [List.cons_append] at hc
  rw [steps_succ _ _ _ (step_of_crci hr hrun hc),
    steps_add bs.length 1 _ _ (steps_crcb (crcAnswered _ _ s) hr hrun rfl), steps_one,
    step_of_crcr (s := crcbAnswered _ _ (crcAnswered _ _ s)) hr hrun rfl]
  simp only [crcAnswered, crcbAnswered, crc16, List.append_assoc, List.singleton_append]

/-- Settles O19: the run is `steps_crcSpan`'s, whose completions but the last are CRCI's and the CRCBs'. -/
theorem crcOfSpan : Obligations.CrcOfSpan := by
  refine ⟨fun s bs rest hr hrun hc => ?_, rfl, crcFeed_append⟩
  refine ⟨_, { err := 0#4, result := crcInit } :: crcbCompletions crcInit bs, steps_crcSpan hr hrun hc, ?_, ?_, rfl⟩
  · rw [List.length_cons, length_crcbCompletions]
  · intro c hmem
    rcases List.mem_cons.1 hmem with rfl | hmem
    · rfl
    · exact err_of_mem_crcbCompletions hmem

/-! ### The table and the bit-serial engine -/

/-- The entry the generating law gives at an index (R133). -/
def crcLaw (n : Nat) : Half := crcShifts 8 (BitVec.ofNat 16 n)

theorem crcRows0_eq_law : crcRows0 = (List.range' 0x00 64).map crcLaw := by decide

theorem crcRows4_eq_law : crcRows4 = (List.range' 0x40 64).map crcLaw := by decide

theorem crcRows8_eq_law : crcRows8 = (List.range' 0x80 64).map crcLaw := by decide

theorem crcRowsC_eq_law : crcRowsC = (List.range' 0xC0 64).map crcLaw := by decide

/-- The table the spec prints is the one the generating law gives (R132, R133). -/
theorem crcTable_eq_law : crcTable = (List.range' 0 256).map crcLaw := by
  rw [crcTable, crcRows0_eq_law, crcRows4_eq_law, crcRows8_eq_law, crcRowsC_eq_law, ← List.map_append,
    ← List.map_append, ← List.map_append, List.range'_append_1, List.range'_append_1, List.range'_append_1]

theorem length_crcTable : crcTable.length = 256 := by
  rw [crcTable_eq_law, List.length_map, List.length_range']

/-- Entry `i` of the table is `i` after eight conditional shift steps (R133). -/
theorem crct_eq_crcShifts (i : Byte) : crct i = crcShifts 8 (i.setWidth 16) := by
  rw [crct, crcTable_eq_law, List.getD_eq_getElem _ _ (by rw [List.length_map, List.length_range']; exact i.isLt),
    List.getElem_map, List.getElem_range', Nat.zero_add, Nat.one_mul, crcLaw, BitVec.ofNat_toNat]

/-- Where the low bits are clear no conditional shift step does more than shift. -/
theorem crcShifts_of_lowBits_clear (n : Nat) (c : Half) (h : ∀ k, k < n → c.getLsbD k = false) :
    crcShifts n c = c >>> n := by
  induction n generalizing c with
  | zero => rw [crcShifts, BitVec.ushiftRight_zero]
  | succ n ih =>
    have hshift : crcShift c = c >>> 1 := by rw [crcShift, h 0 n.succ_pos, if_neg Bool.false_ne_true]
    have hclear (k : Nat) (hk : k < n) : (c >>> 1).getLsbD k = false := by
      rw [BitVec.getLsbD_ushiftRight]; exact h (1 + k) (by omega)
    rw [crcShifts, hshift, ih _ hclear, ← BitVec.shiftRight_add, Nat.add_comm]

/-- A register value is its high byte in place and its low byte. -/
theorem highByte_xor_lowByte (t : Half) : (t >>> 8) <<< 8 ^^^ (t.setWidth 8).setWidth 16 = t := by
  apply BitVec.eq_of_getLsbD_eq; intro i hi
  by_cases h8 : i < 8
  · simp [h8, hi]
  · simp [h8, hi, show 8 + (i - 8) = i by omega]

/-- Eight conditional shift steps are one look into the table: by linearity the high byte, which they only shift down,
and the low byte, whose image is the table's entry, go apart (R131, R133). -/
theorem crcShifts_eight (t : Half) : crcShifts 8 t = (t >>> 8) ^^^ crct (t.setWidth 8) := by
  have hclear (k : Nat) (hk : k < 8) : ((t >>> 8) <<< 8).getLsbD k = false := by simp [hk]
  have hback : (t >>> 8) <<< 8 >>> 8 = t >>> 8 := by
    apply BitVec.eq_of_toNat_eq
    simp only [BitVec.toNat_ushiftRight, BitVec.toNat_shiftLeft, Nat.shiftLeft_eq, Nat.shiftRight_eq_div_pow]
    omega
  calc crcShifts 8 t
      = crcShifts 8 ((t >>> 8) <<< 8 ^^^ (t.setWidth 8).setWidth 16) := by rw [highByte_xor_lowByte]
    _ = (t >>> 8) <<< 8 >>> 8 ^^^ crct (t.setWidth 8) := by
        rw [crcShifts_xor, crcShifts_of_lowBits_clear 8 _ hclear, crct_eq_crcShifts]
    _ = (t >>> 8) ^^^ crct (t.setWidth 8) := by rw [hback]

/-- Settles O15: the table by its law (`crct_eq_crcShifts`), the step by `crcShifts_eight`. -/
theorem crcTableAndBitSerialStep : Obligations.CrcTableAndBitSerialStep :=
  ⟨⟨length_crcTable, crct_eq_crcShifts⟩, fun r b => (crcShifts_eight (r ^^^ b.setWidth 16)).symm⟩

/-! ### A message with its own CRC -/

/-- Settles O20: streaming composes, and a register fed its own two bytes is left at 0 (`crc16_append_crc`). -/
theorem crcOfMessageWithCrc : Obligations.CrcOfMessageWithCrc := crc16_append_crc

end Sys2Proof.Machine
end

section
/-! SUPPORT. The proof about the addresses the frame builder rejects (spec 41_frame_builder.md R152). -/

namespace Sys2Proof.Machine

/-- The addresses REQ rejects are 0 and those above 15 (R152). -/
theorem addressOk_eq_false_iff (a : Byte) : addressOk a = false ↔ a.toNat = 0 ∨ 15 < a.toNat := by
  rw [Bool.eq_false_iff, Ne, addressOk_iff]
  omega

/-- InvalidAddress sets ERRS bit 2 (R152). -/
theorem setErrBit_invalidAddress (e : BitVec 8) : setErrBit e .invalidAddress = e ||| 0x04#8 := rfl

/-- Settles O23: a rejected address only raises InvalidAddress (`execReq_rejected`), and an accepted one completes with
the CRC of the frame it sends (`execReq_sent`). -/
theorem reqRejectsAddress : Obligations.ReqRejectsAddress := by
  refine fun s a g => ⟨fun hout => ?_, fun hmin hmax => ?_⟩
  · rw [← setErrBit_invalidAddress]
    exact execReq_rejected ((addressOk_eq_false_iff a).2 hout)
  · exact ⟨_, requestCrc s.cfg a g, execReq_sent ((addressOk_iff a).2 ⟨hmin, hmax⟩), rfl, rfl⟩

end Sys2Proof.Machine
end

section
/-! SUPPORT. The proofs about the other ends of a capture (spec 42_capture.md): a full buffer, too few bytes, and no end
while tokens are missing. -/

namespace Sys2Proof.Machine

section Cap

variable {s : State} {bs : List Byte} {rest : List Token}

/-- A number of bytes below 2^16 is what `len` holds after them (R26). -/
theorem toNat_ofNat_length (h : bs.length ≤ 65535) : (BitVec.ofNat 16 bs.length).toNat = bs.length := by
  rw [BitVec.toNat_ofNat, Nat.mod_eq_of_lt (by omega)]

/-- The loop with which a CAP starts stores the bytes RX begins with, if they fit, at the indices 0 upward and goes on
with the tokens behind them (R167). Only their number is bounded by the width of `len`, not BUF_CAP. -/
theorem captureTokens_beginCapture (hrx : s.rx = bs.map .byte ++ rest) (hfit : bs.length ≤ s.cfg.bufCap)
    (hcount : bs.length ≤ 65535) :
    ∃ m, (∀ a, Memory.read? m a = if a < bs.length then bs[a]? else Memory.read? s.mem a) ∧
      captureTokens (beginCapture s).cfg.bufCap (beginCapture s).rx (beginCapture s).mem (beginCapture s).len =
        captureTokens s.cfg.bufCap rest m (BitVec.ofNat 16 bs.length) := by
  have hzero : (0#16).toNat = 0 := rfl
  obtain ⟨m, hm, hspan⟩ := captureTokens_span s.cfg.bufCap bs rest s.mem 0#16 (by omega) (by omega)
  refine ⟨m, fun a => ?_, ?_⟩
  · simpa only [hzero, Nat.zero_le, true_and, Nat.zero_add, Nat.sub_zero] using hm a
  · rw [beginCapture_rx, hrx]
    exact hspan.trans (by rw [BitVec.zero_add])

/-- A waiting CAP does nothing while RX stays empty (R166). -/
theorem WaitsForToken.runCapture (h : WaitsForToken s) : runCapture s = .next s := by
  obtain ⟨hrun, hrx, hroom⟩ := h
  have hloop : captureTokens s.cfg.bufCap s.rx s.mem s.len = ⟨s.mem, s.len, s.rx, false⟩ := by
    rw [hrx, captureTokens_nil, decide_eq_false (Nat.not_le.2 hroom)]
  rw [runCapture_waiting hloop rfl, ← hrun]
  rfl

end Cap

/-- ShortResponse sets ERRS bit 3 (R169). -/
theorem setErrBit_shortResponse (e : BitVec 8) : setErrBit e .shortResponse = e ||| 0x08#8 := rfl

/-- Settles O26: after BUF_CAP bytes the loop finds the buffer full and takes no other token (`captureTokens_full`), and
CAP completes (`runCapture_valid`). -/
theorem capUntilFull : Obligations.CapUntilFull := by
  intro s bs rest hrx hfull hmin hcap
  have hlen := toNat_ofNat_length (bs := bs) (by omega)
  obtain ⟨m, hm, hloop⟩ := captureTokens_beginCapture hrx hfull.le (by omega)
  have hended := hloop.trans (captureTokens_full _ _ _ _ (by rw [hlen, hfull]))
  exact ⟨m, hm, runCapture_valid hended rfl (by rw [hlen, hfull]; exact hmin)⟩

/-- Settles O27: the loop ends at the Quiet (`captureTokens_quiet`) with fewer than 6 bytes, and CAP raises ShortResponse
(`runCapture_short`). -/
theorem capShortResponse : Obligations.CapShortResponse := by
  intro s bs rest hrx hshort hmin
  have hlen := toNat_ofNat_length (bs := bs) (by omega)
  obtain ⟨m, hm, hloop⟩ := captureTokens_beginCapture hrx (by omega) (by omega)
  rw [captureTokens_quiet _ _ _ _ (by omega)] at hloop
  rw [← setErrBit_shortResponse]
  exact ⟨m, hm, runCapture_short hloop rfl (by rw [hlen]; exact hshort)⟩

/-- Settles O28: with the bytes stored and room left the loop has not ended (`captureTokens_nil`), so CAP goes on running
(`runCapture_waiting`), and a step of it then answers the same state (`WaitsForToken.runCapture`). -/
theorem capWaitsForToken : Obligations.CapWaitsForToken := by
  refine ⟨fun s bs hrx hroom hcap => ?_, fun s hr hrun hrx hroom => ?_⟩
  · have hlen := toNat_ofNat_length (bs := bs) (by omega)
    obtain ⟨m, hm, hloop⟩ :=
      captureTokens_beginCapture (hrx.trans (List.append_nil _).symm) hroom.le (by omega)
    rw [captureTokens_nil, hlen, decide_eq_false (Nat.not_le.2 hroom)] at hloop
    exact ⟨m, hm, runCapture_waiting hloop rfl⟩
  · exact (step_of_capturing s hr hrun).trans (WaitsForToken.runCapture ⟨hrun, hrx, hroom⟩)

end Sys2Proof.Machine
end

section
/-! SUPPORT. The proofs about the frame locator (spec 43_locator.md R181 to R187): over readable captured bytes the scan
of LOC answers the smallest position at which a frame stands, if there is one. -/

namespace Sys2Proof.Machine

/-! ### Where a frame stands -/

/-- A byte behind a prefix, by its index in the rest. -/
theorem byteAt_append_right (l m : List Byte) (k : Nat) : byteAt (l ++ m) (l.length + k) = byteAt m k := by
  rw [byteAt, List.getD_append_right _ _ _ _ (Nat.le_add_right _ _), Nat.add_sub_cancel_left]
  rfl

/-- A byte of a window, by its index in the whole sequence. -/
theorem byteAt_window (bs : List Byte) (p : Nat) {w k : Nat} (hk : k < w) :
    byteAt ((bs.drop p).take w) k = byteAt bs (p + k) := by
  simp only [byteAt, List.getD_eq_getElem?_getD, List.getElem?_take, if_pos hk, List.getElem?_drop]

/-- In the scan range, what LOC compares is whether a frame stands at the position (R181, R182). -/
theorem frameAt_window_iff (gid : Half) {bs : List Byte} {p : Nat} (hp : p + 6 < bs.length) :
    frameAt gid ((bs.drop p).take 6) = true ↔ FrameStands gid bs p := by
  rw [frameAt_iff, List.take_take, ← BitVec.toNat_inj, le16_toNat, byteAt_window bs p (by omega),
    byteAt_window bs p (by omega), FrameStands, and_iff_right hp]
  rfl

/-- Bytes in front of a sequence move its frames by their number. -/
theorem frameStands_append_left (gid : Half) (junk bs : List Byte) (p : Nat) :
    FrameStands gid (junk ++ bs) (junk.length + p) ↔ FrameStands gid bs p := by
  simp only [FrameStands, List.length_append, Nat.add_assoc, Nat.add_lt_add_iff_left, List.drop_length_add_append,
    byteAt_append_right]

/-- The identifier from its two bytes, low byte first (R13). -/
theorem toNat_of_bytes (v : Half) : (v.extractLsb' 0 8).toNat + 256 * (v.extractLsb' 8 8).toNat = v.toNat := by
  have hv := v.isLt
  simp only [BitVec.extractLsb'_toNat, Nat.shiftRight_eq_div_pow]
  omega

/-- Signature, identifier and at least one payload byte are a frame (R181, R182). -/
theorem frameStands_start (gid : Half) {payload : List Byte} (hne : payload ≠ []) :
    FrameStands gid
      ([0x55#8, 0xAA#8, 0xEB#8, 0x90#8, gid.extractLsb' 0 8, gid.extractLsb' 8 8] ++ payload) 0 := by
  refine ⟨?_, rfl, toNat_of_bytes gid⟩
  rw [List.length_append]
  exact Nat.lt_add_of_pos_right (List.length_pos_of_ne_nil hne)

/-! ### The scan over readable bytes -/

section Scan

variable {s : State} {bs : List Byte}

/-- MemRead of a window of the captured bytes (R62). -/
theorem memRead_captured (hread : readBytes s.mem 0 s.len.toNat = .ok bs) {p w : Nat} (hin : p + w ≤ s.len.toNat) :
    memRead s p w = .ok ((bs.drop p).take w) := by
  rw [memRead_inside s p w hin]
  simpa only [Nat.zero_add] using readBytes_sub _ _ _ _ hread p w hin

/-- A position of the scan range that LOC read shows a frame or not, as its comparison answered. -/
theorem frameStands_iff_of_memRead (hread : readBytes s.mem 0 s.len.toNat = .ok bs) {gid : Half} {p : Nat}
    (hp : p < scanCount s) {m : List Byte} (hm : memRead s p 6 = .ok m) :
    FrameStands gid bs p ↔ frameAt gid m = true := by
  obtain ⟨hlen, -⟩ := (readBytes_ok_iff _ _ _ _).1 hread
  have hrange : p + 6 < s.len.toNat := by
    rw [scanCount, frameOverhead] at hp
    omega
  cases (memRead_captured hread hrange.le).symm.trans hm
  exact (frameAt_window_iff gid (hlen ▸ hrange)).symm

/-- A frame stands in the scan range only (R182). -/
theorem FrameStands.lt_scanCount (hread : readBytes s.mem 0 s.len.toNat = .ok bs) {gid : Half} {p : Nat}
    (h : FrameStands gid bs p) : p < scanCount s := by
  obtain ⟨hlen, -⟩ := (readBytes_ok_iff _ _ _ _).1 hread
  obtain ⟨hp, -⟩ := h
  rw [scanCount, frameOverhead]
  omega

/-- Over readable captured bytes the scan answers: the smallest position at which a frame stands, or that there is none
(R183, R184). -/
theorem scan_captured_cases (hread : readBytes s.mem 0 s.len.toNat = .ok bs) (gid : Half) :
    (∃ p, scan s gid (scanCount s) 0 = .ok (some p) ∧ FrameStands gid bs p ∧ ∀ q, q < p → ¬ FrameStands gid bs q) ∨
    (scan s gid (scanCount s) 0 = .ok none ∧ ∀ q, ¬ FrameStands gid bs q) := by
  obtain ⟨o, ho⟩ := scan_isOk s gid (scanCount s) 0 fun r _ hr =>
    ⟨_, memRead_captured hread (by rw [scanCount, frameOverhead] at hr; omega)⟩
  cases o with
  | some p =>
    obtain ⟨-, hp, ⟨m, hm, hframe⟩, hearlier⟩ := scan_some _ _ _ _ _ ho
    rw [Nat.zero_add] at hp
    refine .inl ⟨p, ho, (frameStands_iff_of_memRead hread hp hm).2 hframe, fun q hq h => ?_⟩
    obtain ⟨m, hm, hno⟩ := hearlier q (Nat.zero_le q) hq
    exact Bool.false_ne_true (hno.symm.trans ((frameStands_iff_of_memRead hread (hq.trans hp) hm).1 h))
  | none =>
    refine .inr ⟨ho, fun q h => ?_⟩
    have hq := h.lt_scanCount hread
    obtain ⟨m, hm, hno⟩ := scan_none _ _ _ _ ho q (Nat.zero_le q) (by rwa [Nat.zero_add])
    exact Bool.false_ne_true (hno.symm.trans ((frameStands_iff_of_memRead hread hq hm).1 h))

end Scan

/-! ### What LOC answers -/

/-- SignatureNotFound sets ERRS bit 4 (R184). -/
theorem setErrBit_signatureNotFound (e : BitVec 8) : setErrBit e .signatureNotFound = e ||| 0x10#8 := rfl

/-- OutOfSequence sets ERRS bit 7 (R187). -/
theorem setErrBit_outOfSequence (e : BitVec 8) : setErrBit e .outOfSequence = e ||| 0x80#8 := rfl

/-- Settles O32: without a valid capture LOC does not scan, it only raises OutOfSequence (`execLoc_noCapture`). -/
theorem locOutOfSequence : Obligations.LocOutOfSequence := by
  intro s g hcv
  rw [← setErrBit_outOfSequence]
  exact execLoc_noCapture hcv

/-- Settles O30: the scan answers a smallest position too (`scan_captured_cases`), and two smallest positions are the
same; LOC takes it (`execLoc_found`). -/
theorem locFindsFirstFrame : Obligations.LocFindsFirstFrame := by
  intro s g bs p hcv hread hframe hfirst
  obtain ⟨q, hscan, hq, hqfirst⟩ | ⟨-, hnone⟩ := scan_captured_cases hread (groupRecord s.cfg g).gid
  · have hqp : q = p :=
      Nat.le_antisymm (Nat.not_lt.1 fun h => hqfirst p h hframe) (Nat.not_lt.1 fun h => hfirst q h hq)
    subst hqp
    exact execLoc_found hcv hscan
  · exact absurd hframe (hnone p)

/-- Settles O31: where no frame stands the scan finds nothing (`scan_captured_cases`), and LOC raises SignatureNotFound
with `pv` cleared (`execLoc_notFound`). -/
theorem locFindsNothing : Obligations.LocFindsNothing := by
  intro s g bs hcv hread hno
  obtain ⟨q, -, hq, -⟩ | ⟨hscan, -⟩ := scan_captured_cases hread (groupRecord s.cfg g).gid
  · exact absurd hq (hno q)
  · rw [← setErrBit_signatureNotFound]
    exact execLoc_notFound hcv hscan

/-- Settles O33: the frame behind the garbage stands at the number of garbage bytes (`frameStands_append_left`,
`frameStands_start`), and no earlier one does, so it is the one LOC takes (`locFindsFirstFrame`). -/
theorem locSkipsGarbage : Obligations.LocSkipsGarbage := by
  rintro s g junk payload bs gid hcv rfl hne rfl hread hfirst
  refine locFindsFirstFrame s g _ junk.length hcv hread ?_ hfirst
  rw [List.append_assoc]
  exact (frameStands_append_left _ junk _ 0).2 (frameStands_start _ hne)

end Sys2Proof.Machine
end

section
/-! SUPPORT. The proofs about the field decoder (spec 44_decoder.md R196 to R214): what Extract gives for each type and
what a reader of the record recovers, a row that emits its record, a row that does not fit, and a DEC out of
sequence. -/

namespace Sys2Proof.Machine

/-! ### Numbers -/

/-- A bit vector read as a signed number is its natural number read in two's complement (R11). -/
theorem toInt_eq_twosComplement {w : Nat} (hw : 0 < w) (x : BitVec w) : x.toInt = twosComplement w x.toNat := by
  have hhalf : 2 ^ w = 2 * 2 ^ (w - 1) := by rw [← Nat.pow_succ', Nat.succ_eq_add_one, Nat.sub_add_cancel hw]
  rw [BitVec.toInt_eq_toNat_cond, twosComplement]
  exact ite_congr (by rw [hhalf, Nat.mul_lt_mul_left Nat.two_pos]) (fun _ => rfl) fun _ => rfl

/-- A value of at most 32 bits, zero-extended to 32 bits and then to `val`, keeps its number. -/
theorem setWidth_word {w : Nat} (hw : w ≤ 32) (x : BitVec w) :
    (x.setWidth 32).setWidth 128 = BitVec.ofNat 128 x.toNat := by
  rw [← BitVec.ofNat_toNat, BitVec.toNat_setWidth_of_le hw]

/-- A value of at most 32 bits, sign-extended to 32 bits, is its signed number there (R205, R207). -/
theorem signExtend_word {w : Nat} (hw : 0 < w) (x : BitVec w) :
    x.signExtend 32 = BitVec.ofInt 32 (twosComplement w x.toNat) := by
  rw [← toInt_eq_twosComplement hw]
  rfl

/-- LE32 of four bytes is their little-endian number (R13). -/
theorem le32_toNat_eq_leNat {m : List Byte} (hm : m.length = 4) : (le32 m 0).toNat = leNat m := by
  obtain ⟨a, b, c, d, rfl⟩ := List.length_eq_four.1 hm
  rw [le32_toNat]
  simp only [byteAt, leNat, List.getD_cons_zero, List.getD_cons_succ]
  omega

/-! ### Packed text -/

/-- The bits of packed bytes: those of the first byte, then those of the bytes behind it. -/
theorem getLsbD_packBytes_cons (w : Nat) (b : Byte) (bs : List Byte) (i : Nat) :
    (packBytes w (b :: bs)).getLsbD i =
      (decide (i < w) && if i < 8 then b.getLsbD i else (packBytes w bs).getLsbD (i - 8)) := by
  rw [packBytes, BitVec.getLsbD_or, BitVec.getLsbD_setWidth, BitVec.getLsbD_shiftLeft, Bool.and_assoc,
    ← Bool.and_or_distrib_left]
  by_cases hi : i < 8
  · simp [hi]
  · simp [hi, BitVec.getLsbD_of_ge b i (Nat.not_lt.1 hi)]

/-- Packed bytes are the little-endian number of the bytes (R105). -/
theorem packBytes_eq_leNat (w : Nat) (m : List Byte) : packBytes w m = BitVec.ofNat w (leNat m) := by
  induction m with
  | nil => rfl
  | cons b bs ih =>
    apply BitVec.eq_of_getLsbD_eq
    intro i hi
    have hbits : (leNat (b :: bs)).testBit i = if i < 8 then b.toNat.testBit i else (leNat bs).testBit (i - 8) := by
      rw [leNat, Nat.add_comm]
      exact Nat.testBit_two_pow_mul_add (leNat bs) b.isLt i
    rw [getLsbD_packBytes_cons, ih, BitVec.getLsbD_ofNat, BitVec.getLsbD_ofNat, hbits,
      decide_eq_true (show i - 8 < w by omega)]
    rfl

/-- Byte `k` of packed bytes is at bits 8k+7:8k (R211, R212). -/
theorem extractLsb'_packBytes {w : Nat} (m : List Byte) {k : Nat} (hk : 8 * k + 8 ≤ w) :
    (packBytes w m).extractLsb' (8 * k) 8 = byteAt m k := by
  apply BitVec.eq_of_getLsbD_eq
  intro i hi
  rw [BitVec.getLsbD_extractLsb', decide_eq_true hi, Bool.true_and]
  induction m generalizing k with
  | nil => simp [packBytes, byteAt]
  | cons b bs ih =>
    rw [getLsbD_packBytes_cons, decide_eq_true (show 8 * k + i < w by omega), Bool.true_and]
    cases k with
    | zero => simp [byteAt, hi]
    | succ k =>
      rw [if_neg (by omega), show 8 * (k + 1) + i - 8 = 8 * k + i by omega, ih (by omega)]
      rfl

/-- Unpacking a value that holds the bytes `m` from byte `k` on gives the bytes from there on. -/
theorem unpackBytes_eq_drop {v : BitVec 128} {m : List Byte}
    (hv : ∀ k, k < m.length → v.extractLsb' (8 * k) 8 = byteAt m k) (n : Nat) {k : Nat} (hk : k + n = m.length) :
    unpackBytes v k n = m.drop k := by
  induction n generalizing k with
  | zero => exact (List.drop_of_length_le (Nat.le_of_eq hk.symm)).symm
  | succ n ih =>
    have hlt : k < m.length := by omega
    rw [unpackBytes, hv k hlt, ih (by omega), List.drop_eq_getElem_cons hlt, byteAt, List.getD_eq_getElem _ _ hlt]

/-- Unpacking gives back the bytes that were packed, up to sixteen. -/
theorem unpackBytes_packBytes_take {m : List Byte} (n : Nat) (hm : n ≤ m.length) (hn : n ≤ 16) :
    unpackBytes (packBytes 128 (m.take n)) 0 n = m.take n := by
  have hlen : (m.take n).length = n := List.length_take_of_le hm
  exact unpackBytes_eq_drop (fun _ hk => extractLsb'_packBytes (m.take n) (by omega)) n (by rw [Nat.zero_add, hlen])

/-! ### Extract and the reader of a record -/

/-- The low 32 bits of a `val` that holds a 32-bit word. -/
theorem extractLsb'_setWidth_word (v : Word) : (v.setWidth 128).extractLsb' 0 32 = v := by
  rw [BitVec.extractLsb'_setWidth_of_le (by decide), BitVec.extractLsb'_eq_self]

/-- A reader of a field record recovers the abstract value of the bytes Extract was given (R105, R203). -/
theorem value_extract (t : TypeTag) {m : List Byte} (hm : m.length = rowWidth t) (cidx roff : Half) :
    FieldRecord.value ⟨cidx, t.code, roff, extract t m⟩ = some (abstractValue t m) := by
  simp only [FieldRecord.value, tagOfCode_code]
  cases t with
  | u8 => simp only [extract, extractU8, abstractValue, extractLsb'_setWidth_word,
      BitVec.toNat_setWidth_of_le (show 8 ≤ 32 by decide)]
  | i8 => simp only [extract, extractI8, abstractValue, extractLsb'_setWidth_word,
      BitVec.toInt_signExtend_of_le (show 8 ≤ 32 by decide)]
  | u16 => simp only [extract, extractU16, abstractValue, extractLsb'_setWidth_word,
      BitVec.toNat_setWidth_of_le (show 16 ≤ 32 by decide)]
  | i16 => simp only [extract, extractI16, abstractValue, extractLsb'_setWidth_word,
      BitVec.toInt_signExtend_of_le (show 16 ≤ 32 by decide)]
  | u32 => simp only [extract, extractU32, abstractValue, extractLsb'_setWidth_word]
  | i32 => simp only [extract, extractI32, abstractValue, extractLsb'_setWidth_word]
  | f32 => simp only [extract, extractF32, abstractValue, extractLsb'_setWidth_word]
  | text16 => simp only [extract, extractText16, abstractValue, unpackBytes_packBytes_take 16 hm.ge (Nat.le_refl 16)]
  | text8 => simp only [extract, extractText8, abstractValue, unpackBytes_packBytes_take 8 hm.ge (by decide)]

/-- A type has the rule whose `val` and value its Extract and abstract value are; what a reader recovers then follows
(`value_extract`). -/
theorem fieldRule_intro {t : TypeTag} {val : List Byte → BitVec 128} {value : List Byte → FieldValue}
    (hval : ∀ m, m.length = rowWidth t → extract t m = val m)
    (hvalue : ∀ m, m.length = rowWidth t → abstractValue t m = value m) :
    FieldRule t t.code (rowWidth t) val value :=
  ⟨rfl, rfl, fun m cidx roff hm => ⟨hval m hm, hvalue m hm, by
    rw [← hval m hm, ← hvalue m hm]; exact value_extract t hm cidx roff⟩⟩

/-! ### The rule of each type -/

/-- A U8 field is its byte (R204). -/
theorem fieldRule_u8 : FieldRule .u8 0#4 1 (fun m => BitVec.ofNat 128 (byteAt m 0).toNat)
    (fun m => .natural (byteAt m 0).toNat) :=
  fieldRule_intro (fun _ _ => setWidth_word (by decide) _) fun _ _ => rfl

/-- An I8 field is its byte, read as signed (R205). -/
theorem fieldRule_i8 : FieldRule .i8 1#4 1
    (fun m => (BitVec.ofInt 32 (twosComplement 8 (byteAt m 0).toNat)).setWidth 128)
    (fun m => .signed (twosComplement 8 (byteAt m 0).toNat)) :=
  fieldRule_intro (fun _ _ => congrArg (BitVec.setWidth 128) (signExtend_word (by decide) _))
    fun _ _ => congrArg FieldValue.signed (toInt_eq_twosComplement (by decide) _)

/-- A U16 field is LE16 of its bytes (R206). -/
theorem fieldRule_u16 : FieldRule .u16 2#4 2
    (fun m => BitVec.ofNat 128 ((byteAt m 0).toNat + 256 * (byteAt m 1).toNat))
    (fun m => .natural ((byteAt m 0).toNat + 256 * (byteAt m 1).toNat)) :=
  fieldRule_intro (fun m _ => by rw [← le16_toNat m 0]; exact setWidth_word (by decide) _)
    fun m _ => congrArg FieldValue.natural (le16_toNat m 0)

/-- An I16 field is LE16 of its bytes, read as signed (R207). -/
theorem fieldRule_i16 : FieldRule .i16 3#4 2
    (fun m => (BitVec.ofInt 32 (twosComplement 16 ((byteAt m 0).toNat + 256 * (byteAt m 1).toNat))).setWidth 128)
    (fun m => .signed (twosComplement 16 ((byteAt m 0).toNat + 256 * (byteAt m 1).toNat))) :=
  fieldRule_intro
    (fun m _ => by
      rw [← le16_toNat m 0]; exact congrArg (BitVec.setWidth 128) (signExtend_word (by decide) _))
    fun m _ => by
      rw [← le16_toNat m 0]; exact congrArg FieldValue.signed (toInt_eq_twosComplement (by decide) _)

/-- The `val` of U32, I32 and F32 (R208 to R210). -/
theorem setWidth_le32 {m : List Byte} (hm : m.length = 4) :
    (le32 m 0).setWidth 128 = BitVec.ofNat 128 (leNat m) := by
  rw [← BitVec.ofNat_toNat, le32_toNat_eq_leNat hm]

/-- A U32 field is LE32 of its bytes (R208). -/
theorem fieldRule_u32 : FieldRule .u32 4#4 4 (fun m => BitVec.ofNat 128 (leNat m)) (fun m => .natural (leNat m)) :=
  fieldRule_intro (fun _ hm => setWidth_le32 hm)
    fun _ hm => congrArg FieldValue.natural (le32_toNat_eq_leNat hm)

/-- An I32 field is LE32 of its bytes, read as signed (R209). -/
theorem fieldRule_i32 : FieldRule .i32 5#4 4 (fun m => BitVec.ofNat 128 (leNat m))
    (fun m => .signed (twosComplement 32 (leNat m))) :=
  fieldRule_intro (fun _ hm => setWidth_le32 hm) fun _ hm => by
    rw [← le32_toNat_eq_leNat hm]; exact congrArg FieldValue.signed (toInt_eq_twosComplement (by decide) _)

/-- An F32 field is the pattern of its bytes (R210). -/
theorem fieldRule_f32 : FieldRule .f32 6#4 4 (fun m => BitVec.ofNat 128 (leNat m))
    (fun m => .pattern (BitVec.ofNat 32 (leNat m))) :=
  fieldRule_intro (fun _ hm => setWidth_le32 hm) fun m hm => by
    rw [← le32_toNat_eq_leNat hm, BitVec.ofNat_toNat, BitVec.setWidth_eq]; rfl

/-- The `val` of Text16 and Text8 (R211, R212). -/
theorem packBytes_take {m : List Byte} {w : Nat} (hm : m.length = w) :
    packBytes 128 (m.take w) = BitVec.ofNat 128 (leNat m) := by
  rw [List.take_of_length_le hm.le, packBytes_eq_leNat]

/-- The abstract value of Text16 and Text8 (R213). -/
theorem text_take {m : List Byte} {w : Nat} (hm : m.length = w) :
    FieldValue.text (m.take w ++ [0x00#8]) = .text (m ++ [0x00#8]) := by
  rw [List.take_of_length_le hm.le]

/-- A Text16 field is its bytes, packed (R211). -/
theorem fieldRule_text16 : FieldRule .text16 7#4 16 (fun m => BitVec.ofNat 128 (leNat m))
    (fun m => .text (m ++ [0x00#8])) :=
  fieldRule_intro (fun _ hm => packBytes_take hm) fun _ hm => text_take hm

/-- A Text8 field is its bytes, packed (R212). -/
theorem fieldRule_text8 : FieldRule .text8 8#4 8 (fun m => BitVec.ofNat 128 (leNat m))
    (fun m => .text (m ++ [0x00#8])) :=
  fieldRule_intro (fun _ hm => packBytes_take hm) fun _ hm => text_take hm

/-- Settles O36, by the rule of each type. -/
theorem extractGivesFieldValues : Obligations.ExtractGivesFieldValues :=
  ⟨fieldRule_u8, fieldRule_i8, fieldRule_u16, fieldRule_i16, fieldRule_u32, fieldRule_i32, fieldRule_f32,
    fieldRule_text16, fieldRule_text8⟩

/-! ### A row at an offset of the window -/

section Offset

variable {base addr : Half} {roff : Nat}

/-- An address less than WIN above the base is in the window (R197). -/
theorem inWindow_of_offset (haddr : addr.toNat = base.toNat + roff) (hroff : roff < 0x200) :
    inWindow base addr = true := by
  rw [inWindow_iff]
  omega

/-- The rawOffset of a row is its address less the base (R107). -/
theorem toNat_sub_of_offset (haddr : addr.toNat = base.toNat + roff) : (addr - base).toNat = roff := by
  rw [roff_toNat _ _ (by omega)]
  omega

theorem sub_eq_of_offset (haddr : addr.toNat = base.toNat + roff) : addr - base = BitVec.ofNat 16 roff := by
  rw [← toNat_sub_of_offset haddr, BitVec.ofNat_toNat, BitVec.setWidth_eq]

end Offset

/-- A row of a type emits what the type's rule says: its address is in the window (`inWindow_of_offset`), its bytes are
readable captured bytes, so `interpretRow_fits` gives the record, and the rule its `val` and value. -/
theorem FieldRule.rowEmits {t : TypeTag} {tag : BitVec 4} {w : Nat} {val : List Byte → BitVec 128}
    {value : List Byte → FieldValue} (h : FieldRule t tag w val value) :
    RowEmits (Instr.ofRow t) tag w val value := by
  obtain ⟨rfl, rfl, hrule⟩ := h
  rintro s g n addr m base roff hrun rfl haddr hroff hfits hm hbytes
  obtain ⟨hval, -, hread⟩ := hrule m s.cidx (BitVec.ofNat 16 roff) hm
  refine ⟨_, rfl, hread, ?_⟩
  have hoff := toNat_sub_of_offset haddr
  have hin : s.poff.toNat + roff + rowWidth t ≤ s.len.toNat := by
    have hpos := rowWidth_pos t
    omega
  have hmem : memRead s (s.poff.toNat + roff) (rowWidth t) = .ok m :=
    (memRead_inside s _ _ hin).trans ((readBytes_ok_iff _ _ _ _).2 ⟨hm, hbytes⟩)
  rw [exec_ofRow, interpretRow_fits hrun (inWindow_of_offset haddr hroff) (by rw [hoff]; exact hfits)
    (by rw [hoff]; exact hmem), sub_eq_of_offset haddr, hval]
  rfl

/-- Settles O37, by the rule of U8. -/
theorem rowU8 : Obligations.RowU8 := fieldRule_u8.rowEmits

/-- Settles O38, by the rule of I8. -/
theorem rowI8 : Obligations.RowI8 := fieldRule_i8.rowEmits

/-- Settles O39, by the rule of U16. -/
theorem rowU16 : Obligations.RowU16 := fieldRule_u16.rowEmits

/-- Settles O40, by the rule of I16. -/
theorem rowI16 : Obligations.RowI16 := fieldRule_i16.rowEmits

/-- Settles O41, by the rule of U32. -/
theorem rowU32 : Obligations.RowU32 := fieldRule_u32.rowEmits

/-- Settles O42, by the rule of I32. -/
theorem rowI32 : Obligations.RowI32 := fieldRule_i32.rowEmits

/-- Settles O43, by the rule of F32. -/
theorem rowF32 : Obligations.RowF32 := fieldRule_f32.rowEmits

/-- Settles O44, by the rule of Text16. -/
theorem rowText16 : Obligations.RowText16 := fieldRule_text16.rowEmits

/-- Settles O45, by the rule of Text8. -/
theorem rowText8 : Obligations.RowText8 := fieldRule_text8.rowEmits

/-! ### The two errors of DEC -/

/-- IncompleteData sets ERRS bit 5 (R200). -/
theorem setErrBit_incompleteData (e : BitVec 8) : setErrBit e .incompleteData = e ||| 0x20#8 := rfl

/-- Settles O47: the row is in the window (`inWindow_of_offset`) and needs more bytes than the payload has, so it
raises IncompleteData (`interpretRow_short`). -/
theorem rowIncompleteData : Obligations.RowIncompleteData := by
  rintro s t addr g n w base roff hrun hw rfl haddr hroff hshort
  have hwidth : w = rowWidth t := hw.trans (by cases t <;> rfl)
  rw [exec_ofRow, ← setErrBit_incompleteData]
  refine interpretRow_short hrun (inWindow_of_offset haddr hroff) ?_
  rw [toNat_sub_of_offset haddr, ← hwidth]
  exact hshort

/-- Settles O35: without a located frame of its group DEC only raises OutOfSequence (`execDec_noFrame`). -/
theorem decOutOfSequence : Obligations.DecOutOfSequence := by
  intro s g h
  rw [← setErrBit_outOfSequence]
  exact execDec_noFrame h

end Sys2Proof.Machine
end

section
/-! SUPPORT. The proofs about the reset state and the step while reset is asserted (spec 70_reset_and_hazards.md R280 to
R283). -/

namespace Sys2Proof.Machine

/-- After a reset every request byte is 0 (R281). -/
theorem resetUnit_req_getElem (s : State) (i : Fin 11) : (resetUnit s).req[i] = 0x00#8 :=
  Vector.getElem_replicate i.isLt

/-- After a reset no buffer index holds a value, so none can be read (R62, R281). -/
theorem read?_resetUnit (s : State) (a : Nat) : Memory.read? (resetUnit s).mem a = none := read?_nil a

/-- A unit right after reset is one that asserting reset leaves as it is: both have the values of R281. -/
theorem resetUnit_resetWith (p : Params) : resetUnit (State.resetWith p) = State.resetWith p := rfl

/-- Settles O1: the reset state is what `resetUnit` makes of it (`resetUnit_resetWith`), so its registers are those of
`resetUnit`. -/
theorem resetStateValues : Obligations.ResetStateValues := by
  have hreset : resetUnit State.reset = State.reset := resetUnit_resetWith Params.default
  unfold Obligations.ResetStateValues
  rw [← hreset]
  exact ⟨resetUnit_crc _, resetUnit_req_getElem _, resetUnit_len _, resetUnit_cv _, resetUnit_poff _, resetUnit_pv _,
    resetUnit_pg _, resetUnit_cidx _, resetUnit_errs _, read?_resetUnit _⟩

/-- Settles O2: with reset asserted the step is `resetUnit` (`step_of_reset`), which names the registers of R281 and the
idle unit and no other field. -/
theorem resetInputActs : Obligations.ResetInputActs := fun _ hr => step_of_reset hr

end Sys2Proof.Machine
end
